-- ==== Sys2Proof/Word.lean ====
section
/-! DEFINITION. The word types of the block: a byte, a 16-bit word and a register number
(00_scope.md R8, R12: every value is unsigned). -/

namespace Sys2Proof

/-- An 8-bit value: a general register, a timer, a memory byte (10_state.md R15). -/
abbrev Byte := BitVec 8

/-- A 16-bit value: the address register, the program counter, a return address, an instruction word. -/
abbrev Word := BitVec 16

/-- The number of a general register V0..VF, of a key or of a stack slot. -/
abbrev Reg := Fin 16

end Sys2Proof
end

