-- ==== Sys2Proof/Syntax.lean ====
section
/-! DEFINITION. The 35 instructions, one constructor per row of spec/opcode_table.json, each with
"only the operand fields relevant to it" (30_encoding.md R62, R63). -/

namespace Sys2Proof

/-- A decoded instruction. `x` and `y` are register numbers, `kk` an immediate byte, `nnn` a 12-bit
address, `n` a sprite height 0..15. -/
inductive Instr where
  /-- 0nnn, SYS nnn. -/
  | sys (nnn : BitVec 12)
  /-- 00E0, CLS. -/
  | cls
  /-- 00EE, RET. -/
  | ret
  /-- 1nnn, JP nnn. -/
  | jp (nnn : BitVec 12)
  /-- 2nnn, CALL nnn. -/
  | call (nnn : BitVec 12)
  /-- 3xkk, SE Vx, kk. -/
  | seByte (x : Reg) (kk : Byte)
  /-- 4xkk, SNE Vx, kk. -/
  | sneByte (x : Reg) (kk : Byte)
  /-- 5xy0, SE Vx, Vy. -/
  | seReg (x y : Reg)
  /-- 6xkk, LD Vx, kk. -/
  | ldByte (x : Reg) (kk : Byte)
  /-- 7xkk, ADD Vx, kk. -/
  | addByte (x : Reg) (kk : Byte)
  /-- 8xy0, LD Vx, Vy. -/
  | ldReg (x y : Reg)
  /-- 8xy1, OR Vx, Vy. -/
  | orReg (x y : Reg)
  /-- 8xy2, AND Vx, Vy. -/
  | andReg (x y : Reg)
  /-- 8xy3, XOR Vx, Vy. -/
  | xorReg (x y : Reg)
  /-- 8xy4, ADD Vx, Vy. -/
  | addReg (x y : Reg)
  /-- 8xy5, SUB Vx, Vy. -/
  | subReg (x y : Reg)
  /-- 8xy6, SHR Vx with the second register kept whatever SHIFT_SOURCE is (R62). -/
  | shr (x y : Reg)
  /-- 8xy7, SUBN Vx, Vy. -/
  | subnReg (x y : Reg)
  /-- 8xyE, SHL Vx with the second register kept whatever SHIFT_SOURCE is (R62). -/
  | shl (x y : Reg)
  /-- 9xy0, SNE Vx, Vy. -/
  | sneReg (x y : Reg)
  /-- Annn, LD I, nnn. -/
  | ldI (nnn : BitVec 12)
  /-- Bnnn, JP V0, nnn. -/
  | jpV0 (nnn : BitVec 12)
  /-- Cxkk, RND Vx, kk. -/
  | rnd (x : Reg) (kk : Byte)
  /-- Dxyn, DRW Vx, Vy, n. -/
  | drw (x y : Reg) (n : Fin 16)
  /-- Ex9E, SKP Vx. -/
  | skp (x : Reg)
  /-- ExA1, SKNP Vx. -/
  | sknp (x : Reg)
  /-- Fx07, LD Vx, DT. -/
  | ldVxDT (x : Reg)
  /-- Fx0A, LD Vx, K. -/
  | ldVxK (x : Reg)
  /-- Fx15, LD DT, Vx. -/
  | ldDTVx (x : Reg)
  /-- Fx18, LD ST, Vx. -/
  | ldSTVx (x : Reg)
  /-- Fx1E, ADD I, Vx. -/
  | addIVx (x : Reg)
  /-- Fx29, LD F, Vx. -/
  | ldFVx (x : Reg)
  /-- Fx33, LD B, Vx. -/
  | ldBVx (x : Reg)
  /-- Fx55, LD [I], Vx: store V0..Vx. -/
  | ldMemVx (x : Reg)
  /-- Fx65, LD Vx, [I]: load V0..Vx. -/
  | ldVxMem (x : Reg)
deriving DecidableEq, Repr

end Sys2Proof
end

