-- ==== Sys2Proof/WellFormed.lean ====
section
/-! DEFINITION. Which terms of `Instr` are instructions of the block. The operand types bound every
field; the one check left is that 0nnn is SYS "exactly when nnn is neither 0x0E0 nor 0x0EE"
(30_encoding.md R64). -/

namespace Sys2Proof

/-- The instruction is the decoding of some word. -/
def Instr.wellFormed : Instr → Bool
  | .sys nnn => decide (nnn ≠ 0x0E0#12 ∧ nnn ≠ 0x0EE#12)
  | .cls | .ret | .jp _ | .call _
  | .seByte _ _ | .sneByte _ _ | .seReg _ _ | .ldByte _ _ | .addByte _ _
  | .ldReg _ _ | .orReg _ _ | .andReg _ _ | .xorReg _ _ | .addReg _ _ | .subReg _ _
  | .shr _ _ | .subnReg _ _ | .shl _ _ | .sneReg _ _
  | .ldI _ | .jpV0 _ | .rnd _ _ | .drw _ _ _ | .skp _ | .sknp _
  | .ldVxDT _ | .ldVxK _ | .ldDTVx _ | .ldSTVx _ | .addIVx _ | .ldFVx _
  | .ldBVx _ | .ldMemVx _ | .ldVxMem _ => true

end Sys2Proof
end

