-- ==== Sys2Proof/Decode.lean ====
section
/-! DEFINITION. The decoder and the encoder, both written from the opcode map of 30_encoding.md R63:
`decode` is "a pure function mapping a 16-bit instruction word to a typed opcode value", total, with
an explicit `unknown` (R70); `encode` assembles the fields of R60 in the formats of R61. -/

namespace Sys2Proof

/-- A field of a word at bit `lo` and up, every other bit 0. -/
def fieldAt {k : Nat} (v : BitVec k) (lo : Nat) : Word := v.setWidth 16 <<< lo

/-- The word of two bytes, the one at the lower address being bits 15:8 (20_memory.md R43). -/
def wordOfBytes (hi lo : Byte) : Word := fieldAt hi 8 ||| fieldAt lo 0

/-- Bits 15:8 of a word: the byte at the lower address (20_memory.md R43). -/
def Word.highByte (w : Word) : Byte := w.extractLsb' 8 8

/-- Bits 7:0 of a word: the byte at the higher address. -/
def Word.lowByte (w : Word) : Byte := w.extractLsb' 0 8

/-- The operand fields of a word (30_encoding.md R60). -/
structure Fields where
  x : Reg
  y : Reg
  n : Fin 16
  kk : Byte
  nnn : BitVec 12
deriving DecidableEq, Repr

/-- The fields at the bits R60 gives them. -/
def fieldsOf (w : Word) : Fields where
  x := (w.extractLsb' 8 4).toFin
  y := (w.extractLsb' 4 4).toFin
  n := (w.extractLsb' 0 4).toFin
  kk := w.extractLsb' 0 8
  nnn := w.extractLsb' 0 12

/-- One row of the opcode map: "A word `w` matches a row when `(w AND mask) = match`" (R63). -/
structure OpcodeRow where
  mask : Word
  pattern : Word
  build : Fields → Instr

/-- The word matches the row. -/
def OpcodeRow.matchesWord (r : OpcodeRow) (w : Word) : Bool := w &&& r.mask == r.pattern

/-- Family 0, rows 2 and 3 tried before row 1 (R64). -/
def family0 : List OpcodeRow :=
  [ ⟨0xFFFF, 0x00E0, fun _ => .cls⟩
  , ⟨0xFFFF, 0x00EE, fun _ => .ret⟩
  , ⟨0xF000, 0x0000, fun f => .sys f.nnn⟩ ]

/-- Families 1 to 7. -/
def families1to7 : List OpcodeRow :=
  [ ⟨0xF000, 0x1000, fun f => .jp f.nnn⟩
  , ⟨0xF000, 0x2000, fun f => .call f.nnn⟩
  , ⟨0xF000, 0x3000, fun f => .seByte f.x f.kk⟩
  , ⟨0xF000, 0x4000, fun f => .sneByte f.x f.kk⟩
  , ⟨0xF00F, 0x5000, fun f => .seReg f.x f.y⟩
  , ⟨0xF000, 0x6000, fun f => .ldByte f.x f.kk⟩
  , ⟨0xF000, 0x7000, fun f => .addByte f.x f.kk⟩ ]

/-- Family 8, "keyed by low nibble d" (R66). -/
def family8 : List OpcodeRow :=
  [ ⟨0xF00F, 0x8000, fun f => .ldReg f.x f.y⟩
  , ⟨0xF00F, 0x8001, fun f => .orReg f.x f.y⟩
  , ⟨0xF00F, 0x8002, fun f => .andReg f.x f.y⟩
  , ⟨0xF00F, 0x8003, fun f => .xorReg f.x f.y⟩
  , ⟨0xF00F, 0x8004, fun f => .addReg f.x f.y⟩
  , ⟨0xF00F, 0x8005, fun f => .subReg f.x f.y⟩
  , ⟨0xF00F, 0x8006, fun f => .shr f.x f.y⟩
  , ⟨0xF00F, 0x8007, fun f => .subnReg f.x f.y⟩
  , ⟨0xF00F, 0x800E, fun f => .shl f.x f.y⟩ ]

/-- Families 9 to E; E is "keyed by low byte" (R67). -/
def families9toE : List OpcodeRow :=
  [ ⟨0xF00F, 0x9000, fun f => .sneReg f.x f.y⟩
  , ⟨0xF000, 0xA000, fun f => .ldI f.nnn⟩
  , ⟨0xF000, 0xB000, fun f => .jpV0 f.nnn⟩
  , ⟨0xF000, 0xC000, fun f => .rnd f.x f.kk⟩
  , ⟨0xF000, 0xD000, fun f => .drw f.x f.y f.n⟩
  , ⟨0xF0FF, 0xE09E, fun f => .skp f.x⟩
  , ⟨0xF0FF, 0xE0A1, fun f => .sknp f.x⟩ ]

/-- Family F, "keyed by low byte" (R68). -/
def familyF : List OpcodeRow :=
  [ ⟨0xF0FF, 0xF007, fun f => .ldVxDT f.x⟩
  , ⟨0xF0FF, 0xF00A, fun f => .ldVxK f.x⟩
  , ⟨0xF0FF, 0xF015, fun f => .ldDTVx f.x⟩
  , ⟨0xF0FF, 0xF018, fun f => .ldSTVx f.x⟩
  , ⟨0xF0FF, 0xF01E, fun f => .addIVx f.x⟩
  , ⟨0xF0FF, 0xF029, fun f => .ldFVx f.x⟩
  , ⟨0xF0FF, 0xF033, fun f => .ldBVx f.x⟩
  , ⟨0xF0FF, 0xF055, fun f => .ldMemVx f.x⟩
  , ⟨0xF0FF, 0xF065, fun f => .ldVxMem f.x⟩ ]

/-- The 35 rows of the opcode map in the order a decoder tries them (R63, R64). -/
def opcodeMap : List OpcodeRow := family0 ++ families1to7 ++ family8 ++ families9toE ++ familyF

/-- The decoder's answer: one of the 35 instructions, or the explicit unknown variant, which
"carries the word itself" (R70, R72). -/
inductive Decoded where
  | instr (i : Instr)
  | unknown (w : Word)
deriving DecidableEq, Repr

/-- Decode a word: the first matching row, built from the word's fields; no match is unknown
(40_cycle.md R78). -/
def decode (w : Word) : Decoded :=
  match opcodeMap.find? (·.matchesWord w) with
  | some r => .instr (r.build (fieldsOf w))
  | none => .unknown w

/-- Decode two bytes as memory holds them, the first at the lower address. -/
def decodeBytes (b0 b1 : Byte) : Decoded := decode (wordOfBytes b0 b1)

/-- A register number or height as a 4-bit field. -/
def nibble (x : Fin 16) : BitVec 4 := BitVec.ofFin x

/-- Format NNN: `aaaa nnnn nnnn nnnn` (R61). -/
def formatNNN (a : BitVec 4) (nnn : BitVec 12) : Word := fieldAt a 12 ||| fieldAt nnn 0

/-- Format XKK, and format X where the low byte is fixed: `aaaa xxxx kkkk kkkk` (R61). -/
def formatXKK (a : BitVec 4) (x : Reg) (kk : Byte) : Word :=
  fieldAt a 12 ||| fieldAt (nibble x) 8 ||| fieldAt kk 0

/-- Format XYN, and format XY where the low nibble is fixed: `aaaa xxxx yyyy nnnn` (R61). -/
def formatXYN (a : BitVec 4) (x y : Reg) (n : Fin 16) : Word :=
  fieldAt a 12 ||| fieldAt (nibble x) 8 ||| fieldAt (nibble y) 4 ||| fieldAt (nibble n) 0

/-- The word of an instruction: "encoding the decoded variant's fields back into the row's pattern"
(R72). -/
def encode : Instr → Word
  | .sys nnn => formatNNN 0x0 nnn
  | .cls => 0x00E0
  | .ret => 0x00EE
  | .jp nnn => formatNNN 0x1 nnn
  | .call nnn => formatNNN 0x2 nnn
  | .seByte x kk => formatXKK 0x3 x kk
  | .sneByte x kk => formatXKK 0x4 x kk
  | .seReg x y => formatXYN 0x5 x y 0x0
  | .ldByte x kk => formatXKK 0x6 x kk
  | .addByte x kk => formatXKK 0x7 x kk
  | .ldReg x y => formatXYN 0x8 x y 0x0
  | .orReg x y => formatXYN 0x8 x y 0x1
  | .andReg x y => formatXYN 0x8 x y 0x2
  | .xorReg x y => formatXYN 0x8 x y 0x3
  | .addReg x y => formatXYN 0x8 x y 0x4
  | .subReg x y => formatXYN 0x8 x y 0x5
  | .shr x y => formatXYN 0x8 x y 0x6
  | .subnReg x y => formatXYN 0x8 x y 0x7
  | .shl x y => formatXYN 0x8 x y 0xE
  | .sneReg x y => formatXYN 0x9 x y 0x0
  | .ldI nnn => formatNNN 0xA nnn
  | .jpV0 nnn => formatNNN 0xB nnn
  | .rnd x kk => formatXKK 0xC x kk
  | .drw x y n => formatXYN 0xD x y n
  | .skp x => formatXKK 0xE x 0x9E
  | .sknp x => formatXKK 0xE x 0xA1
  | .ldVxDT x => formatXKK 0xF x 0x07
  | .ldVxK x => formatXKK 0xF x 0x0A
  | .ldDTVx x => formatXKK 0xF x 0x15
  | .ldSTVx x => formatXKK 0xF x 0x18
  | .addIVx x => formatXKK 0xF x 0x1E
  | .ldFVx x => formatXKK 0xF x 0x29
  | .ldBVx x => formatXKK 0xF x 0x33
  | .ldMemVx x => formatXKK 0xF x 0x55
  | .ldVxMem x => formatXKK 0xF x 0x65

/-- The word whose bits below `nbits` are those of `w`, every bit above zero. -/
def tableWord (nbits w : Nat) : Word := BitVec.ofNat 16 (w % 2 ^ nbits)

/-- What the decoder reads from the word `w` of `nbits` bits, its bytes laid out as the block stores
them. -/
def decodeTableWord (nbits w : Nat) : Option Instr :=
  match decodeBytes (Word.highByte (tableWord nbits w)) (Word.lowByte (tableWord nbits w)) with
  | .instr i => some i
  | .unknown _ => none

end Sys2Proof
end

