-- ==== Sys2Proof/Config.lean ====
section
/-! DEFINITION. What an implementation fixes (the parameters of 00_scope.md R9) and the free values
of the model: constants without a body, which no proof can look into. -/

namespace Sys2Proof

/-- Which register 8xy6 and 8xyE shift (00_scope.md R9; D11). -/
inductive ShiftSource where
  | vy
  | vx
deriving DecidableEq, Repr, Inhabited

/-- What an access at an effective address of 4096 or more does (00_scope.md R9; D5). -/
inductive AddrPolicy where
  | fault
  | wrap
deriving DecidableEq, Repr

/-- What a program write below 0x200 does (00_scope.md R9; D6). -/
inductive LowWritePolicy where
  | fault
  | allow
deriving DecidableEq, Repr

/-- The parameters of the block that "a model takes as an argument" (00_scope.md R9). -/
structure Config where
  /-- SHIFT_SOURCE; none leaves it open. -/
  shiftSource : Option ShiftSource
  /-- CYCLES_PER_TICK, "a positive integer"; none leaves it open. -/
  cyclesPerTick : Option ℕ+
  /-- FONT_BASE, "constrained to FONT_BASE + 80 <= 0x200": 0 to 432. -/
  fontBase : Fin 433
  /-- ADDR_POLICY. -/
  addrPolicy : AddrPolicy
  /-- LOW_WRITE_POLICY. -/
  lowWritePolicy : LowWritePolicy
deriving DecidableEq, Repr

/-- The SHIFT_SOURCE of a machine whose parameters leave it open: "OPEN (no default)", so it has no
body and a claim holds for both settings (93_implementation_defined.md B1; log entry 2). -/
opaque Config.openShiftSource : ShiftSource

/-- The CYCLES_PER_TICK of a machine whose parameters leave it open: no body
(93_implementation_defined.md B2; log entry 2). -/
opaque Config.openCyclesPerTick : ℕ+

/-- The random oracle of 00_scope.md R10: the byte that draw number `n` gives. No body: every draw is
a free byte (93_implementation_defined.md B3; log entry 4). -/
opaque Config.randomByte : Nat → Byte

end Sys2Proof
end

