-- ==== Sys2Proof/Machine/Params.lean ====
section
/-! DEFINITION. The parameters of the machine that starts in `State.reset` (00_scope.md R9). -/

namespace Sys2Proof

/-- SHIFT_SOURCE: as the parameters set it, else the open constant (log entry 2). -/
def Config.shift (c : Config) : ShiftSource :=
  match c.shiftSource with
  | some q => q
  | none => Config.openShiftSource

/-- CYCLES_PER_TICK: as the parameters set it, else the open constant (log entry 2). -/
def Config.ticksEvery (c : Config) : Nat :=
  match c.cyclesPerTick with
  | some n => n.val
  | none => Config.openCyclesPerTick.val

/-- The parameters at reset: the defaults of 00_scope.md R9 where it gives one, open where it gives
none (log entries 2 and 3). -/
def Config.initial : Config where
  shiftSource := none
  cyclesPerTick := none
  fontBase := 0
  addrPolicy := .fault
  lowWritePolicy := .fault

end Sys2Proof
end

