-- ==== Sys2Proof/Machine/State.lean ====
section
/-! DEFINITION. The state record of 10_state.md R15 as plain data, with the two fields of the
model's own (`cfg`, `draws`), the reasons a step can stop, and the state after reset (R35). -/

namespace Sys2Proof.Machine

/-- The kinds of fault of 60_exceptions.md R129. The block reports a fault by entering the run state
`Faulted(f)`, so a step that raises one ANSWERS A NEXT STATE whose `run` holds it; no operation of
this model answers `Host.Outcome.fault` (log entry 6). Each is safe: it is the spec's own outcome. -/
inductive Fault where
  /-- Code 1. Raised by a step whose word matches no row of the opcode map. Safe. -/
  | unknownOpcode
  /-- Code 2. Raised by 2nnn with SP = 16. Safe. -/
  | stackOverflow
  /-- Code 3. Raised by 00EE with SP = 0. Safe. -/
  | stackUnderflow
  /-- Code 4. Raised by fetch, Dxyn, Fx33, Fx55 and Fx65 at an effective address of 4096 or more
  under ADDR_POLICY = fault. Safe. -/
  | memoryOutOfRange
  /-- Code 5. Raised by Fx33 and Fx55 writing below 0x200 under LOW_WRITE_POLICY = fault. Safe. -/
  | reservedWrite
deriving DecidableEq, Repr

/-- Why an operation has no transition. -/
inductive Refusal where
  /-- An instruction without a meaning in `exec`. No arm of this model answers it. Safe. -/
  | notModelled (mnemonic : String)
  /-- Raised by the host operation `setKeyState` for an index outside 0..15: "the model gives it no
  transition" (60_exceptions.md R144). Safe. -/
  | keyIndexOutOfRange (k : Nat)
deriving DecidableEq, Repr

/-- The fault record of 60_exceptions.md R128. Its `code` is a function of the kind. -/
structure FaultRecord where
  /-- `kind`, and with it `code` (R129). -/
  kind : Fault
  /-- `word`: the instruction word, none for a fault in fetch. -/
  word : Option Word
  /-- `addr`: the address A of the instruction. -/
  addr : Word
  /-- `mem_addr`: the failing effective address, a natural number (20_memory.md R46), or none. -/
  memAddr : Option Nat
deriving DecidableEq, Repr

/-- The run state (10_state.md R30, R31). -/
inductive RunState where
  | running
  | waitingForKey (x : Reg)
  | faulted (f : FaultRecord)
deriving DecidableEq, Repr

/-- Memory: the bytes that differ from the reset contents, addresses strictly rising. -/
abbrev Memory := List Host.Cell

/-- `disp[px][py]`, column px 0..63 and row py 0..31, true meaning lit (10_state.md R28). -/
abbrev Display := Vector (Vector Bool 32) 64

/-- Every pixel 0. -/
def Display.clear : Display := Vector.replicate 64 (Vector.replicate 32 false)

/-- The state of the block (10_state.md R15). -/
structure State where
  /-- V[0..15]; V[15] is VF (R16, R17). -/
  v : Vector Byte 16
  /-- The address register (R19). -/
  I : Word
  /-- The program counter (R20). -/
  pc : Word
  /-- The depth of the call stack, 0 to 16 (R23). -/
  sp : Fin 17
  /-- The return addresses; entries at `sp` and above are stale (R24). -/
  stack : Vector Word 16
  /-- The delay timer (R25). -/
  dt : Byte
  /-- The sound timer (R26). -/
  st : Byte
  /-- The 4096-byte store (R27). -/
  mem : Memory
  /-- The display buffer (R28). -/
  disp : Display
  /-- The keys, true meaning pressed (R29). -/
  key : Vector Bool 16
  /-- The run state (R30, R31). -/
  run : RunState
  /-- The step count of `run_for` (40_cycle.md R86). -/
  cyc : Nat
  /-- The model's own: the parameters of 00_scope.md R9, which no operation changes (log entry 1). -/
  cfg : Config
  /-- The model's own: how many bytes Cxkk has drawn (log entry 4). -/
  draws : Nat
deriving DecidableEq, Repr

/-- The machine right after reset (10_state.md R35), which is also its state when created (R38).
Memory lists nothing: an unlisted byte reads as its reset value. -/
def State.reset : State where
  v := Vector.replicate 16 0
  I := 0
  pc := 0x200
  sp := 0
  stack := Vector.replicate 16 0
  dt := 0
  st := 0
  mem := []
  disp := Display.clear
  key := Vector.replicate 16 false
  run := .running
  cyc := 0
  cfg := Config.initial
  draws := 0

end Sys2Proof.Machine
end

