-- ==== Sys2Proof/Machine/Memory.lean ====
section
/-! DEFINITION. Memory as a canonical list of cells: what an unlisted address reads as, reading,
writing, and the canonical form (20_memory.md R39, R41, R42). -/

namespace Sys2Proof.Machine

/-- The glyph table of 20_memory.md R42, glyphs 0 to 7. -/
def glyphsLow : List (List Byte) :=
  [ [0xF0, 0x90, 0x90, 0x90, 0xF0]
  , [0x20, 0x60, 0x20, 0x20, 0x70]
  , [0xF0, 0x10, 0xF0, 0x80, 0xF0]
  , [0xF0, 0x10, 0xF0, 0x10, 0xF0]
  , [0x90, 0x90, 0xF0, 0x10, 0x10]
  , [0xF0, 0x80, 0xF0, 0x10, 0xF0]
  , [0xF0, 0x80, 0xF0, 0x90, 0xF0]
  , [0xF0, 0x10, 0x20, 0x40, 0x40] ]

/-- The glyph table of 20_memory.md R42, glyphs 8 to F. -/
def glyphsHigh : List (List Byte) :=
  [ [0xF0, 0x90, 0xF0, 0x90, 0xF0]
  , [0xF0, 0x90, 0xF0, 0x10, 0xF0]
  , [0xF0, 0x90, 0xF0, 0x90, 0x90]
  , [0xE0, 0x90, 0xE0, 0x90, 0xE0]
  , [0xF0, 0x80, 0x80, 0x80, 0xF0]
  , [0xE0, 0x90, 0x90, 0x90, 0xE0]
  , [0xF0, 0x80, 0xF0, 0x80, 0xF0]
  , [0xF0, 0x80, 0xF0, 0x80, 0x80] ]

/-- The 80 font bytes in address order. -/
def fontBytes : List Byte := (glyphsLow ++ glyphsHigh).flatten

/-- MEM_SIZE (00_scope.md R8). -/
def memSize : Nat := 4096

/-- ORIGIN, the end of the reserved low region (00_scope.md R8). -/
def origin : Nat := 0x200

/-- What an unlisted address reads as: its reset value (10_state.md R35), a glyph byte in the 80
bytes from `base` (FONT_BASE) on, else 0. -/
def Memory.unlisted (base : Fin 433) (a : Nat) : Byte :=
  if a < origin then
    if base.val ≤ a then (fontBytes[a - base.val]?).getD 0 else 0
  else 0

/-- The byte at an address. -/
def Memory.read (base : Fin 433) (m : Memory) (a : Nat) : Byte :=
  match m with
  | [] => Memory.unlisted base a
  | (a', b) :: rest => if a = a' then b else Memory.read base rest a

/-- Put byte `b` at address `a`, whose reset value is `d`: a byte equal to `d` is not listed. -/
def Memory.put (d : Byte) (a : Nat) (b : Byte) : Memory → Memory
  | [] => if b = d then [] else [(a, b)]
  | (a', b') :: rest =>
    if a < a' then (if b = d then (a', b') :: rest else (a, b) :: (a', b') :: rest)
    else if a = a' then (if b = d then rest else (a, b) :: rest)
    else (a', b') :: Memory.put d a b rest

/-- Write one byte. -/
def Memory.write (base : Fin 433) (m : Memory) (a : Nat) (b : Byte) : Memory :=
  Memory.put (Memory.unlisted base a) a b m

/-- Write consecutive bytes from `a` on. -/
def Memory.writeAll (base : Fin 433) (m : Memory) (a : Nat) : List Byte → Memory
  | [] => m
  | b :: bs => Memory.writeAll base (Memory.write base m a b) (a + 1) bs

/-- Every listed address is at least `lo`, the addresses rise strictly and lie in the store, and no
entry equals what its address reads as unlisted. -/
def Memory.wfFrom (base : Fin 433) (lo : Nat) : Memory → Bool
  | [] => true
  | (a, b) :: rest =>
    decide (lo ≤ a) && decide (a < memSize) && decide (b ≠ Memory.unlisted base a)
      && Memory.wfFrom base (a + 1) rest

/-- The canonical form of memory. -/
def Memory.wf (base : Fin 433) (m : Memory) : Bool := Memory.wfFrom base 0 m

end Sys2Proof.Machine
end

