-- ==== Sys2Proof/Machine/Ops.lean ====
section
/-! DEFINITION. The named operations over registers, memory, stack, display and run state that every
meaning is written with: the primitives of 00_scope.md R13, taking a fault (60_exceptions.md R130),
the fetch (40_cycle.md R77), and leaving a fault by reset (60_exceptions.md R138). -/

namespace Sys2Proof.Machine

/-- What an instruction's meaning answers. -/
abbrev Result := Host.Outcome State Fault Refusal

/-! ## Registers -/

/-- `V[x]`. -/
def State.getV (s : State) (x : Reg) : Byte := s.v[x.val]

/-- `V[x] <- b`. -/
def State.setV (s : State) (x : Reg) (b : Byte) : State := { s with v := s.v.set x.val b }

/-- `I <- w`. -/
def State.setI (s : State) (w : Word) : State := { s with I := w }

/-- `PC <- w`: sets the next fetch address. -/
def State.setPC (s : State) (w : Word) : State := { s with pc := w }

/-- `DT <- b`. -/
def State.setDT (s : State) (b : Byte) : State := { s with dt := b }

/-- `ST <- b`. -/
def State.setST (s : State) (b : Byte) : State := { s with st := b }

/-- `run <- r`. -/
def State.setRun (s : State) (r : RunState) : State := { s with run := r }

/-- `disp <- d`. -/
def State.setDisp (s : State) (d : Display) : State := { s with disp := d }

/-- `mem <- m`. -/
def State.setMem (s : State) (m : Memory) : State := { s with mem := m }

/-- Write the call stack and its depth. -/
def State.setStack (s : State) (sp : Fin 17) (stack : Vector Word 16) : State :=
  { s with sp := sp, stack := stack }

/-- Count one draw of the random oracle. -/
def State.countDraw (s : State) : State := { s with draws := s.draws + 1 }

/-- VF (10_state.md R17). -/
def vf : Reg := 15

/-! ## Faults -/

/-- `code` of a fault record (60_exceptions.md R129). -/
def Fault.code : Fault → Nat
  | .unknownOpcode => 1
  | .stackOverflow => 2
  | .stackUnderflow => 3
  | .memoryOutOfRange => 4
  | .reservedWrite => 5

/-- What a `raise` names: the kind and, for a memory fault, the failing address. -/
structure Raise where
  kind : Fault
  memAddr : Option Nat
deriving DecidableEq, Repr

/-- Taking a fault (60_exceptions.md R130, R133). `s` is the state at the START of the step, so `pc` is
the address A of the instruction; nothing but `run` changes. -/
def State.raise (s : State) (word : Option Word) (r : Raise) : State :=
  s.setRun (.faulted { kind := r.kind, word := word, addr := s.pc, memAddr := r.memAddr })

/-- The fetch's advance, `PC <- (A + 2) mod 2^16` (40_cycle.md R77). -/
def State.advance (s : State) : State := s.setPC (s.pc + 2)

/-- The state before the fetch's advance: what a fault in the execute phase goes back to. -/
def State.retreat (s : State) : State := s.setPC (s.pc - 2)

/-- A fault raised by instruction `i` in its execute phase (where `pc` is A + 2): the state goes back
to the start of the step and `run` records the fault with the instruction's word. -/
def State.raiseIn (s : State) (i : Instr) (r : Raise) : State := s.retreat.raise (some (encode i)) r

/-- `reset()` (70_reset_and_hazards.md R151), the only way out of a fault (60_exceptions.md R138). The
parameters are not state and stay; the draw counter stays so that later draws are fresh. -/
def State.resetAgain (s : State) : State := { State.reset with cfg := s.cfg, draws := s.draws }

/-! ## Memory -/

/-- The byte at an address of the store, without any check. -/
def State.peek (s : State) (a : Nat) : Byte := s.mem.read s.cfg.fontBase a

/-- Store a byte at an address of the store, without any check. -/
def State.poke (s : State) (a : Nat) (b : Byte) : State := s.setMem (s.mem.write s.cfg.fontBase a b)

/-- The address of the store that an effective address names: itself below 4096; at 4096 or more
ADDR_POLICY decides (20_memory.md R47, R48). -/
def resolveAddr (p : AddrPolicy) (addr : Nat) : Except Raise Nat :=
  if addr < memSize then .ok addr
  else match p with
    | .fault => .error { kind := .memoryOutOfRange, memAddr := some addr }
    | .wrap => .ok (addr % memSize)

/-- `MemRead(addr, 1)` (20_memory.md R47). -/
def State.memRead (s : State) (addr : Nat) : Except Raise Byte :=
  match resolveAddr s.cfg.addrPolicy addr with
  | .error r => .error r
  | .ok a => .ok (s.peek a)

/-- `MemWrite(addr, 1, b)` (20_memory.md R48). -/
def State.memWrite (s : State) (addr : Nat) (b : Byte) : Except Raise State :=
  match resolveAddr s.cfg.addrPolicy addr with
  | .error r => .error r
  | .ok a =>
    if a < origin ∧ s.cfg.lowWritePolicy = .fault then
      .error { kind := .reservedWrite, memAddr := some a }
    else .ok (s.poke a b)

/-- Read `n` bytes from `addr` on, in rising order; the first failing address decides (R50, R137). -/
def State.readBlock (s : State) (addr : Nat) : Nat → Except Raise (List Byte)
  | 0 => .ok []
  | n + 1 =>
    match s.memRead addr with
    | .error r => .error r
    | .ok b =>
      match s.readBlock (addr + 1) n with
      | .error r => .error r
      | .ok bs => .ok (b :: bs)

/-- Write bytes from `addr` on, in rising order; the first failing address decides, and then no byte
is written (R50, R133, R137). -/
def State.writeBlock (s : State) (addr : Nat) : List Byte → Except Raise State
  | [] => .ok s
  | b :: bs =>
    match s.memWrite addr b with
    | .error r => .error r
    | .ok s' => s'.writeBlock (addr + 1) bs

/-- `V[k], V[k+1], ... <-` the bytes, as far as there are registers. -/
def State.loadRegs (s : State) (k : Nat) : List Byte → State
  | [] => s
  | b :: bs => if h : k < 16 then (s.setV ⟨k, h⟩ b).loadRegs (k + 1) bs else s

/-! ## Fetch -/

/-- The two reads of the fetch (40_cycle.md R77), big-endian (20_memory.md R43). -/
def State.fetch (s : State) : Except Raise Word :=
  match s.memRead s.pc.toNat with
  | .error r => .error r
  | .ok hi =>
    match s.memRead (s.pc.toNat + 1) with
    | .error r => .error r
    | .ok lo => .ok (wordOfBytes hi lo)

/-- `s` made ready to fetch word `w` in the very next step: running, the word's two bytes stored where
the fetch reads them, and the program counter at the origin where the store ends before them. -/
def State.placeWord (s : State) (w : Word) : State :=
  let r := s.setRun .running
  let t := if r.pc.toNat + 1 < memSize ∨ r.cfg.addrPolicy = .wrap then r else r.setPC 0x200
  (t.poke (t.pc.toNat % memSize) (Word.highByte w)).poke ((t.pc.toNat + 1) % memSize) (Word.lowByte w)

/-! ## Call stack -/

/-- Push a return address (42_jump_call.md R93); none when SP = 16. -/
def State.push (s : State) (w : Word) : Option State :=
  if h : s.sp.val < 16 then
    some (s.setStack ⟨s.sp.val + 1, by omega⟩ (s.stack.set s.sp.val w))
  else none

/-- Pop a return address (41_system.md R91): the state with one entry less and the entry, which stays
in its slot as a stale value (10_state.md R24); none when SP = 0. -/
def State.pop (s : State) : Option (State × Word) :=
  if h : 0 < s.sp.val then
    some (s.setStack ⟨s.sp.val - 1, by omega⟩ s.stack, s.stack[s.sp.val - 1]'(by omega))
  else none

/-! ## Display -/

/-- `disp[px][py]`. -/
def Display.pixel (d : Display) (px : Fin 64) (py : Fin 32) : Bool := d[px.val][py.val]

/-- `disp[px][py] <- disp[px][py] XOR 1`. -/
def Display.toggle (d : Display) (px : Fin 64) (py : Fin 32) : Display :=
  d.set px.val (d[px.val].set py.val (!d.pixel px py))

/-- A display with the collision seen so far. -/
structure Blit where
  disp : Display
  collision : Bool
deriving DecidableEq, Repr

/-- One pixel of a sprite: a 1 bit toggles its pixel, and turning one off is a collision (R113). -/
def Blit.dot (z : Blit) (on : Bool) (px : Fin 64) (py : Fin 32) : Blit :=
  if on then { disp := z.disp.toggle px py, collision := z.collision || z.disp.pixel px py } else z

/-- The column of a pixel, `(xs + c) mod 64` (46_draw.md R115). -/
def column (xs c : Nat) : Fin 64 := Fin.ofNat 64 (xs + c)

/-- The row of a pixel, `(ys + r) mod 32` (46_draw.md R115). -/
def rowOf (ys r : Nat) : Fin 32 := Fin.ofNat 32 (ys + r)

/-- One sprite row: bit 7 is the leftmost pixel (46_draw.md R114). -/
def Blit.row (z : Blit) (xs : Nat) (py : Fin 32) (b : Byte) : Blit :=
  [0, 1, 2, 3, 4, 5, 6, 7].foldl (fun z c => z.dot (b.getLsbD (7 - c)) (column xs c) py) z

/-- The sprite rows from row offset `r` on. -/
def Blit.rows (z : Blit) (xs ys r : Nat) : List Byte → Blit
  | [] => z
  | b :: bs => (z.row xs (rowOf ys r) b).rows xs ys (r + 1) bs

end Sys2Proof.Machine
end

