-- ==== Sys2Proof/Machine/Flags.lean ====
section
/-! DEFINITION. Every flag the spec computes into VF (10_state.md R17), and the order of the two writes
of a flag-setting instruction (44_alu.md R100). -/

namespace Sys2Proof.Machine

/-- `(c ? 1 : 0)` as a register value (00_scope.md R12). -/
def flagByte (c : Bool) : Byte := if c then 1 else 0

/-- Carry of 8xy4: "VF = 1 iff a+b > 255" (44_alu.md R105). -/
def carryFlag (a b : Byte) : Byte := flagByte (decide (a.toNat + b.toNat > 255))

/-- Not-borrow of 8xy5 and 8xy7: "minuend ≥ subtrahend" (44_alu.md R106, R108). -/
def notBorrowFlag (minuend subtrahend : Byte) : Byte :=
  flagByte (decide (minuend.toNat ≥ subtrahend.toNat))

/-- The bit 8xy6 shifts out: `s AND 1` (44_alu.md R107). -/
def shiftRightFlag (s : Byte) : Byte := s &&& 1

/-- The bit 8xyE shifts out: `s >> 7` (44_alu.md R109). -/
def shiftLeftFlag (s : Byte) : Byte := s >>> 7

/-- Collision of Dxyn (46_draw.md R113). -/
def collisionFlag (c : Bool) : Byte := flagByte c

/-- Write `V[x]`, then VF: with x = F the flag is what VF holds (44_alu.md R100). -/
def State.setResultAndFlag (s : State) (x : Reg) (result flag : Byte) : State :=
  (s.setV x result).setV vf flag

end Sys2Proof.Machine
end

