-- ==== Sys2Proof/Machine/Operands.lean ====
section
/-! DEFINITION. The operand forms of the instructions: how an immediate is widened, which register a
shift reads, which key, glyph, digits and register block an operand names. -/

namespace Sys2Proof.Machine

/-- `zext_16(nnn)` (30_encoding.md R62). -/
def zext16 (nnn : BitVec 12) : Word := nnn.setWidth 16

/-- A register value widened to 16 bits with zeros (00_scope.md R12). -/
def widen (b : Byte) : Word := b.setWidth 16

/-- The value 8xy6 and 8xyE shift: V[y] or V[x] by SHIFT_SOURCE (44_alu.md R107, R109). -/
def State.shiftOperand (s : State) (x y : Reg) : Byte :=
  match s.cfg.shift with
  | .vy => s.getV y
  | .vx => s.getV x

/-- The low nibble of a register value, which names a key or a glyph (47_key_skip.md R117,
48_f_family.md R124). -/
def lowNibble (b : Byte) : Fin 16 := (b.extractLsb' 0 4).toFin

/-- `key[V[x] AND 0xF]` (47_key_skip.md R117). -/
def State.keyNamedBy (s : State) (x : Reg) : Bool := s.key[(lowNibble (s.getV x)).val]

/-- `FONT_BASE + 5 * (V[x] AND 0xF)` (48_f_family.md R124). -/
def State.glyphAddr (s : State) (x : Reg) : Word :=
  BitVec.ofNat 16 (s.cfg.fontBase.val + 5 * (lowNibble (s.getV x)).val)

/-- The hundreds, tens and ones of a value (48_f_family.md R125). -/
def bcdDigits (b : Byte) : List Byte :=
  [ BitVec.ofNat 8 (b.toNat / 100)
  , BitVec.ofNat 8 (b.toNat / 10 % 10)
  , BitVec.ofNat 8 (b.toNat % 10) ]

/-- `V[0], ..., V[x]` (48_f_family.md R126). -/
def State.regsUpTo (s : State) (x : Reg) : List Byte := s.v.toList.take (x.val + 1)

/-- A skip: `if c: PC <- (PC + 2) mod 2^16` (43_skip_load_add.md). -/
def State.skipIf (s : State) (c : Bool) : State := if c then s.setPC (s.pc + 2) else s

/-- The byte the next draw of the random oracle gives (45_index_jump_random.md R112). -/
def State.nextRandom (s : State) : Byte := Config.randomByte s.draws

end Sys2Proof.Machine
end

