-- ==== Sys2Proof/Machine/Alu.lean ====
section
/-! DEFINITION. Family 8, the ALU (44_alu.md). Operands are read from the state before anything is
written, then V[x], then VF (R100). -/

namespace Sys2Proof.Machine

/-- LD Vx, Vy (R101). -/
def execLdReg (x y : Reg) (s : State) : Result := .next (s.setV x (s.getV y))

/-- OR Vx, Vy (R102): VF not written as a flag. -/
def execOrReg (x y : Reg) (s : State) : Result := .next (s.setV x (s.getV x ||| s.getV y))

/-- AND Vx, Vy (R103): VF not written as a flag. -/
def execAndReg (x y : Reg) (s : State) : Result := .next (s.setV x (s.getV x &&& s.getV y))

/-- XOR Vx, Vy (R104): VF not written as a flag. -/
def execXorReg (x y : Reg) (s : State) : Result := .next (s.setV x (s.getV x ^^^ s.getV y))

/-- ADD Vx, Vy (R105): the sum mod 256, VF the carry. -/
def execAddReg (x y : Reg) (s : State) : Result :=
  .next (s.setResultAndFlag x (s.getV x + s.getV y) (carryFlag (s.getV x) (s.getV y)))

/-- SUB Vx, Vy (R106): V[x] - V[y] mod 256, VF the not-borrow. -/
def execSubReg (x y : Reg) (s : State) : Result :=
  .next (s.setResultAndFlag x (s.getV x - s.getV y) (notBorrowFlag (s.getV x) (s.getV y)))

/-- SHR Vx (R107): the source by SHIFT_SOURCE, VF the bit shifted out. -/
def execShr (x y : Reg) (s : State) : Result :=
  .next (s.setResultAndFlag x (s.shiftOperand x y >>> 1) (shiftRightFlag (s.shiftOperand x y)))

/-- SUBN Vx, Vy (R108): V[y] - V[x] mod 256, VF the not-borrow. -/
def execSubnReg (x y : Reg) (s : State) : Result :=
  .next (s.setResultAndFlag x (s.getV y - s.getV x) (notBorrowFlag (s.getV y) (s.getV x)))

/-- SHL Vx (R109): the source by SHIFT_SOURCE, VF the bit shifted out. -/
def execShl (x y : Reg) (s : State) : Result :=
  .next (s.setResultAndFlag x (s.shiftOperand x y <<< 1) (shiftLeftFlag (s.shiftOperand x y)))

end Sys2Proof.Machine
end

