-- ==== Sys2Proof/Machine/Draw.lean ====
section
/-! DEFINITION. Family D: DRW (46_draw.md). -/

namespace Sys2Proof.Machine

/-- DRW Vx, Vy, n (R113): the coordinates and all n rows are read before any pixel changes, the
sprite is XORed in with wrap (R115), and VF is written last. The outcome is dirty (`stepDirty`). -/
def execDrw (x y : Reg) (n : Fin 16) (s : State) : Result :=
  match s.readBlock s.I.toNat n.val with
  | .error r => .next (s.raiseIn (.drw x y n) r)
  | .ok rows =>
    let z := Blit.rows { disp := s.disp, collision := false }
      ((s.getV x).toNat % 64) ((s.getV y).toNat % 32) 0 rows
    .next ((s.setDisp z.disp).setV vf (collisionFlag z.collision))

end Sys2Proof.Machine
end

