-- ==== Sys2Proof/Machine/IndexJumpRandom.lean ====
section
/-! DEFINITION. Families A, B and C: address register, indexed jump, random (45_index_jump_random.md). -/

namespace Sys2Proof.Machine

/-- LD I, nnn (R110). -/
def execLdI (nnn : BitVec 12) (s : State) : Result := .next (s.setI (zext16 nnn))

/-- JP V0, nnn (R111). -/
def execJpV0 (nnn : BitVec 12) (s : State) : Result :=
  .next (s.setPC (zext16 nnn + widen (s.getV 0)))

/-- RND Vx, kk (R112): a fresh draw AND the mask. -/
def execRnd (x : Reg) (kk : Byte) (s : State) : Result :=
  .next ((s.setV x (s.nextRandom &&& kk)).countDraw)

end Sys2Proof.Machine
end

