-- ==== Sys2Proof/Machine/JumpCall.lean ====
section
/-! DEFINITION. Families 1 and 2: JP, CALL (42_jump_call.md). -/

namespace Sys2Proof.Machine

/-- JP nnn (R92). -/
def execJp (nnn : BitVec 12) (s : State) : Result := .next (s.setPC (zext16 nnn))

/-- CALL nnn (R93): StackOverflow when SP = 16, else push A + 2 and jump. -/
def execCall (nnn : BitVec 12) (s : State) : Result :=
  match s.push s.pc with
  | none => .next (s.raiseIn (.call nnn) { kind := .stackOverflow, memAddr := none })
  | some s' => .next (s'.setPC (zext16 nnn))

end Sys2Proof.Machine
end

