-- ==== Sys2Proof/Machine/KeySkip.lean ====
section
/-! DEFINITION. Family E: SKP, SKNP (47_key_skip.md). -/

namespace Sys2Proof.Machine

/-- SKP Vx (R117). -/
def execSkp (x : Reg) (s : State) : Result := .next (s.skipIf (s.keyNamedBy x))

/-- SKNP Vx (R118). -/
def execSknp (x : Reg) (s : State) : Result := .next (s.skipIf (!s.keyNamedBy x))

end Sys2Proof.Machine
end

