-- ==== Sys2Proof/Machine/System.lean ====
section
/-! DEFINITION. Family 0: SYS, CLS, RET (41_system.md). -/

namespace Sys2Proof.Machine

/-- SYS nnn (R89): nothing, PC stays A + 2. -/
def execSys (_nnn : BitVec 12) (s : State) : Result := .next s

/-- CLS (R90): every pixel 0. The step's outcome is dirty (`stepDirty`). -/
def execCls (s : State) : Result := .next (s.setDisp Display.clear)

/-- RET (R91): StackUnderflow when SP = 0, else pop into PC. -/
def execRet (s : State) : Result :=
  match s.pop with
  | none => .next (s.raiseIn .ret { kind := .stackUnderflow, memAddr := none })
  | some (s', w) => .next (s'.setPC w)

end Sys2Proof.Machine
end

