-- ==== Sys2Proof/Machine/TimerKeyMemory.lean ====
section
/-! DEFINITION. Family F: timers, key wait, address register, glyphs, BCD, block moves
(48_f_family.md). -/

namespace Sys2Proof.Machine

/-- LD Vx, DT (R119). -/
def execLdVxDT (x : Reg) (s : State) : Result := .next (s.setV x s.dt)

/-- LD Vx, K (R120): wait; a later `setKeyState` completes it. PC stays A + 2. -/
def execLdVxK (x : Reg) (s : State) : Result := .next (s.setRun (.waitingForKey x))

/-- LD DT, Vx (R121). -/
def execLdDTVx (x : Reg) (s : State) : Result := .next (s.setDT (s.getV x))

/-- LD ST, Vx (R122). -/
def execLdSTVx (x : Reg) (s : State) : Result := .next (s.setST (s.getV x))

/-- ADD I, Vx (R123): mod 2^16, VF not written. -/
def execAddIVx (x : Reg) (s : State) : Result := .next (s.setI (s.I + widen (s.getV x)))

/-- LD F, Vx (R124). -/
def execLdFVx (x : Reg) (s : State) : Result := .next (s.setI (s.glyphAddr x))

/-- LD B, Vx (R125). -/
def execLdBVx (x : Reg) (s : State) : Result :=
  match s.writeBlock s.I.toNat (bcdDigits (s.getV x)) with
  | .error r => .next (s.raiseIn (.ldBVx x) r)
  | .ok s' => .next s'

/-- LD [I], Vx (R126). -/
def execLdMemVx (x : Reg) (s : State) : Result :=
  match s.writeBlock s.I.toNat (s.regsUpTo x) with
  | .error r => .next (s.raiseIn (.ldMemVx x) r)
  | .ok s' => .next s'

/-- LD Vx, [I] (R127). -/
def execLdVxMem (x : Reg) (s : State) : Result :=
  match s.readBlock s.I.toNat (x.val + 1) with
  | .error r => .next (s.raiseIn (.ldVxMem x) r)
  | .ok bytes => .next (s.loadRegs 0 bytes)

end Sys2Proof.Machine
end

