-- ==== Sys2Proof/Machine/Cycle.lean ====
section
/-! DEFINITION. The fetch-decode-execute cycle and its outcome (40_cycle.md R76 to R83). `Step.lean`
calls it. -/

namespace Sys2Proof.Machine

/-- A step in `Running`: fetch, decode, execute (R76). A fault of the fetch has no word; an unknown word
raises UnknownOpcode from the state before the fetch's advance (R80). -/
def State.runCycle (s : State) : Result :=
  match s.fetch with
  | .error r => .next (s.raise none r)
  | .ok w =>
    match decode w with
    | .unknown u => .next (s.raise (some u) { kind := .unknownOpcode, memAddr := none })
    | .instr i => exec i s.advance

/-- `step()`: the cycle in `Running` (R76); nothing in `WaitingForKey` (R82) and in `Faulted` (R83). -/
def State.cycle (s : State) : Result :=
  match s.run with
  | .running => s.runCycle
  | .waitingForKey _ => .next s
  | .faulted _ => .next s

/-- What `step()` returns to the host (R81). -/
inductive StepOutcome where
  | ok (pc : Word) (dirty blocked : Bool)
  | fault (f : FaultRecord)
deriving DecidableEq, Repr

/-- The outcome a state shows, with the step's dirty flag: Fault(f) in `Faulted(f)`, else
Ok(pc, dirty, blocked) (R81, R82, R83). -/
def State.outcome (s : State) (dirty : Bool) : StepOutcome :=
  match s.run with
  | .running => .ok s.pc dirty false
  | .waitingForKey _ => .ok s.pc false true
  | .faulted f => .fault f

/-- The instruction writes the display (R81, D22). -/
def drawsDisplay : Instr → Bool
  | .cls | .drw _ _ _ => true
  | .sys _ | .ret | .jp _ | .call _
  | .seByte _ _ | .sneByte _ _ | .seReg _ _ | .ldByte _ _ | .addByte _ _
  | .ldReg _ _ | .orReg _ _ | .andReg _ _ | .xorReg _ _ | .addReg _ _ | .subReg _ _
  | .shr _ _ | .subnReg _ _ | .shl _ _ | .sneReg _ _
  | .ldI _ | .jpV0 _ | .rnd _ _ | .skp _ | .sknp _
  | .ldVxDT _ | .ldVxK _ | .ldDTVx _ | .ldSTVx _ | .addIVx _ | .ldFVx _
  | .ldBVx _ | .ldMemVx _ | .ldVxMem _ => false

/-- The instruction the next step executes, if it executes one. -/
def State.nextInstr (s : State) : Option Instr :=
  match s.run with
  | .waitingForKey _ => none
  | .faulted _ => none
  | .running =>
    match s.fetch with
    | .error _ => none
    | .ok w =>
      match decode w with
      | .unknown _ => none
      | .instr i => some i

/-- The dirty flag of the next step: it executes 00E0 or Dxyn (R81). -/
def State.stepDirty (s : State) : Bool :=
  match s.nextInstr with
  | none => false
  | some i => drawsDisplay i

end Sys2Proof.Machine
end

