-- ==== Sys2Proof/Machine/Step.lean ====
section
/-! DEFINITION. The step of the machine, and the word a test places for it to fetch. -/

namespace Sys2Proof.Machine

/-- `step()` (40_cycle.md R75): one fetch-decode-execute cycle. -/
def step (s : State) : Host.Outcome State Fault Refusal := s.cycle

/-- `s` with the instruction word `w` (its low `nbits` bits) where `step` fetches next (log entry 11). -/
def State.withFetchWord (s : State) (nbits w : Nat) : State := s.placeWord (tableWord nbits w)

end Sys2Proof.Machine
end

