-- ==== Sys2Proof/Machine/HostOps.lean ====
section
/-! DEFINITION. The host's operations on the block (40_cycle.md R75), each one whole transition between
two steps (20_memory.md R58). -/

namespace Sys2Proof.Machine

/-- One decrement, never below zero (10_state.md R25, R36). -/
def timerTick (t : Byte) : Byte := if t = 0 then 0 else t - 1

/-- `tick()` (60_exceptions.md R141): no effect in `Faulted`. -/
def State.tick (s : State) : State :=
  match s.run with
  | .faulted _ => s
  | .running | .waitingForKey _ => (s.setDT (timerTick s.dt)).setST (timerTick s.st)

/-- `key[k] <- p`. -/
def State.setKey (s : State) (k : Fin 16) (p : Bool) : State := { s with key := s.key.set k.val p }

/-- After the key write: a not-pressed-to-pressed change completes a wait (60_exceptions.md R145). -/
def State.keyChanged (s : State) (k : Fin 16) (old p : Bool) : State :=
  match s.run with
  | .waitingForKey x =>
    if p && !old then (s.setV x (BitVec.ofNat 8 k.val)).setRun .running else s
  | .running => s
  | .faulted _ => s

/-- `set_key_state(k, p)` (60_exceptions.md R144): refused for k outside 0..15. -/
def State.setKeyState (s : State) (k : Nat) (p : Bool) : Result :=
  if h : k < 16 then .next ((s.setKey ⟨k, h⟩ p).keyChanged ⟨k, h⟩ s.key[k] p)
  else .refused (.keyIndexOutOfRange k)

/-- MAX_IMAGE (00_scope.md R8). -/
def maxImage : Nat := memSize - origin

/-- `load(bytes)` (70_reset_and_hazards.md R153); none is LoadImageTooLarge, which changes nothing
(60_exceptions.md R136). -/
def State.load (s : State) (bytes : List Byte) : Option State :=
  if bytes.length > maxImage then none
  else some (s.setMem (s.mem.writeAll s.cfg.fontBase origin bytes))

/-- `sound_active()` (60_exceptions.md R142). -/
def State.soundActive (s : State) : Bool := s.st != 0

/-- `dump()` (60_exceptions.md R146): 2048 big-endian words. -/
def State.dump (s : State) : List Word :=
  (List.range 2048).map fun j => wordOfBytes (s.peek (2 * j)) (s.peek (2 * j + 1))

/-- The scheduler's count of one executed step, with the tick that is due (40_cycle.md R86). -/
def State.countStep (s : State) : State :=
  let t := { s with cyc := s.cyc + 1 }
  if t.cyc % t.cfg.ticksEvery = 0 then t.tick else t

/-- The loop of `run_for(n)` (40_cycle.md R86); `o` is the outcome so far. -/
def State.runLoop (s : State) (o : StepOutcome) : Nat → State × StepOutcome
  | 0 => (s, o)
  | n + 1 =>
    match s.run with
    | .waitingForKey _ => (s, o)
    | .faulted _ => (s, o)
    | .running =>
      match step s with
      | .fault _ => (s, o)
      | .refused _ => (s, o)
      | .next t =>
        match t.outcome s.stepDirty with
        | .fault f => (t, .fault f)
        | .ok pc dirty blocked => t.countStep.runLoop (.ok pc dirty blocked) n

/-- `run_for(n)` (40_cycle.md R86): it starts from the current status. -/
def State.runFor (s : State) (n : Nat) : State × StepOutcome := s.runLoop (s.outcome false) n

/-- An operation of the block's interface (40_cycle.md R75). -/
inductive Request where
  | step
  | runFor (n : Nat)
  | tick
  | reset
  | load (bytes : List Byte)
  | setKeyState (k : Nat) (pressed : Bool)
  | display
  | soundActive
  | dump
deriving DecidableEq, Repr

/-- What an operation returns to the host. -/
inductive Reply where
  | none
  | outcome (o : StepOutcome)
  | loaded
  | loadImageTooLarge
  | display (d : Display)
  | sound (active : Bool)
  | dump (words : List Word)
deriving DecidableEq, Repr

/-- The step with its outcome (40_cycle.md R76, R81). -/
def State.stepReply (s : State) : Host.Outcome (State × Reply) Fault Refusal :=
  match step s with
  | .next t => .next (t, .outcome (t.outcome s.stepDirty))
  | .fault r => .fault r
  | .refused r => .refused r

/-- `set_key_state` as a request. -/
def State.keyReply (s : State) (k : Nat) (p : Bool) : Host.Outcome (State × Reply) Fault Refusal :=
  match s.setKeyState k p with
  | .next t => .next (t, .none)
  | .fault r => .fault r
  | .refused r => .refused r

/-- `load` as a request. -/
def State.loadReply (s : State) (bytes : List Byte) : State × Reply :=
  match s.load bytes with
  | Option.none => (s, .loadImageTooLarge)
  | some t => (t, .loaded)

/-- Perform one operation: the state after it and its reply. -/
def State.perform (s : State) : Request → Host.Outcome (State × Reply) Fault Refusal
  | .step => s.stepReply
  | .runFor n => .next ((s.runFor n).1, .outcome (s.runFor n).2)
  | .tick => .next (s.tick, .none)
  | .reset => .next (s.resetAgain, .none)
  | .load bytes => .next (s.loadReply bytes)
  | .setKeyState k p => s.keyReply k p
  | .display => .next (s, .display s.disp)
  | .soundActive => .next (s, .sound s.soundActive)
  | .dump => .next (s, .dump s.dump)

end Sys2Proof.Machine
end

