-- ==== Sys2Proof/Safety.lean ====
section
/-! DEFINITION. The terms the claims are stated in: which accesses complete, what a frame is, which
pixels a sprite covers, what a step executes, and the invariants of the machine. -/

namespace Sys2Proof.Machine

/-! ## Accesses -/

/-- A read at this effective address completes (20_memory.md R47). -/
def State.Readable (s : State) (addr : Nat) : Prop := addr < 4096 ∨ s.cfg.addrPolicy = .wrap

/-- A program write at this effective address completes (20_memory.md R48). -/
def State.Writable (s : State) (addr : Nat) : Prop :=
  s.Readable addr ∧ (0x200 ≤ addr % 4096 ∨ s.cfg.lowWritePolicy = .allow)

/-- The first of the `n` addresses from `addr` on that is not readable is `addr + k`. -/
def State.FirstUnreadable (s : State) (addr n k : Nat) : Prop :=
  k < n ∧ (∀ j, j < k → s.Readable (addr + j)) ∧ ¬ s.Readable (addr + k)

/-- The first of the `n` addresses from `addr` on that is not writable is `addr + k`. -/
def State.FirstUnwritable (s : State) (addr n k : Nat) : Prop :=
  k < n ∧ (∀ j, j < k → s.Writable (addr + j)) ∧ ¬ s.Writable (addr + k)

/-- `s` after it took a fault: nothing but `run` changed (60_exceptions.md R128, R133). -/
def State.faultedWith (s : State) (kind : Fault) (word : Option Word) (memAddr : Option Nat) : State :=
  { s with run := .faulted { kind := kind, word := word, addr := s.pc, memAddr := memAddr } }

/-- `s` after a program write at a not writable address: range is checked first, then the reserved
region (60_exceptions.md R137). -/
def State.faultedByWrite (s : State) (word : Word) (addr : Nat) : State :=
  if 4096 ≤ addr ∧ s.cfg.addrPolicy = .fault then
    s.faultedWith .memoryOutOfRange (some word) (some addr)
  else s.faultedWith .reservedWrite (some word) (some (addr % 4096))

/-! ## Execution -/

/-- Words under this mask and match decode to this instruction, built from the fields of
30_encoding.md R60. -/
def EncodedAs (mask pattern : Word) (build : Fields → Instr) : Prop :=
  ∀ w : Word, w &&& mask = pattern → decode w = .instr (build (fieldsOf w))

/-- The next step fetches word `w` and executes instruction `i`. -/
def State.Executes (s : State) (w : Word) (i : Instr) : Prop :=
  s.run = .running ∧ s.fetch = .ok w ∧ decode w = .instr i

/-! ## Frames -/

/-- A part of the state that some instruction may change. -/
inductive Part where
  | v (x : Reg)
  | I
  | pc
  | sp
  | stack
  | dt
  | st
  | mem
  | disp
  | run
  | draws
deriving DecidableEq, Repr

/-- `t` differs from `s` in the listed parts only: every other register, pixel and byte reads as
before, and the keys, `cyc` and the parameters are the same. -/
structure Frame (parts : List Part) (s t : State) : Prop where
  v : ∀ x, Part.v x ∉ parts → t.getV x = s.getV x
  I : Part.I ∉ parts → t.I = s.I
  pc : Part.pc ∉ parts → t.pc = s.pc
  sp : Part.sp ∉ parts → t.sp = s.sp
  stack : Part.stack ∉ parts → t.stack = s.stack
  dt : Part.dt ∉ parts → t.dt = s.dt
  st : Part.st ∉ parts → t.st = s.st
  mem : Part.mem ∉ parts → ∀ a, t.peek a = s.peek a
  disp : Part.disp ∉ parts → ∀ px py, t.disp.pixel px py = s.disp.pixel px py
  run : Part.run ∉ parts → t.run = s.run
  draws : Part.draws ∉ parts → t.draws = s.draws
  key : t.key = s.key
  cyc : t.cyc = s.cyc
  cfg : t.cfg = s.cfg

/-! ## Drawing -/

/-- Row `r` of the sprite at I: the byte at I + r (46_draw.md R113; 20_memory.md R47). -/
def State.spriteRow (s : State) (r : Nat) : Byte := s.peek ((s.I.toNat + r) % 4096)

/-- A 1 bit of the sprite of Dxyn lands on this pixel (46_draw.md R114, R115). -/
def State.SpriteCovers (s : State) (x y : Reg) (n : Fin 16) (px : Fin 64) (py : Fin 32) : Prop :=
  ∃ r c : Nat, r < n.val ∧ c < 8 ∧ (s.spriteRow r).getLsbD (7 - c) = true ∧
    px.val = ((s.getV x).toNat % 64 + c) % 64 ∧ py.val = ((s.getV y).toNat % 32 + r) % 32

/-- The sprite of Dxyn turns off a pixel that was on: a collision (46_draw.md R113). -/
def State.SpriteCollides (s : State) (x y : Reg) (n : Fin 16) : Prop :=
  ∃ px py, s.SpriteCovers x y n px py ∧ s.disp.pixel px py = true

/-! ## Reset and host operations -/

/-- The 80 glyph bytes, glyphs 0 to F, as 20_memory.md R42 lists them. -/
def glyphsOfR42 : Vector Byte 80 :=
  #v[0xF0, 0x90, 0x90, 0x90, 0xF0, 0x20, 0x60, 0x20, 0x20, 0x70,
     0xF0, 0x10, 0xF0, 0x80, 0xF0, 0xF0, 0x10, 0xF0, 0x10, 0xF0,
     0x90, 0x90, 0xF0, 0x10, 0x10, 0xF0, 0x80, 0xF0, 0x10, 0xF0,
     0xF0, 0x80, 0xF0, 0x90, 0xF0, 0xF0, 0x10, 0x20, 0x40, 0x40,
     0xF0, 0x90, 0xF0, 0x90, 0xF0, 0xF0, 0x90, 0xF0, 0x10, 0xF0,
     0xF0, 0x90, 0xF0, 0x90, 0x90, 0xE0, 0x90, 0xE0, 0x90, 0xE0,
     0xF0, 0x80, 0x80, 0x80, 0xF0, 0xE0, 0x90, 0x90, 0x90, 0xE0,
     0xF0, 0x80, 0xF0, 0x80, 0xF0, 0xF0, 0x80, 0xF0, 0x80, 0x80]

/-- Every field holds its reset value (10_state.md R35; 70_reset_and_hazards.md R151), whatever the
parameters. -/
structure State.IsReset (t : State) : Prop where
  v : ∀ x, t.getV x = 0
  I : t.I = 0
  pc : t.pc = 0x200
  sp : t.sp = 0
  stack : ∀ j : Fin 16, t.stack[j.val] = 0
  dt : t.dt = 0
  st : t.st = 0
  glyphs : ∀ j : Fin 80, t.peek (t.cfg.fontBase.val + j.val) = glyphsOfR42[j.val]
  zeros : ∀ a, a < t.cfg.fontBase.val ∨ t.cfg.fontBase.val + 80 ≤ a → t.peek a = 0
  disp : ∀ px py, t.disp.pixel px py = false
  key : ∀ k : Fin 16, t.key[k.val] = false
  run : t.run = .running
  cyc : t.cyc = 0

/-- `set_key_state(k, p)` completes the wait of Fx0A for register `x` (60_exceptions.md R145). -/
def State.KeyCompletes (s : State) (k : Fin 16) (p : Bool) (x : Reg) : Prop :=
  s.run = .waitingForKey x ∧ p = true ∧ s.key[k.val] = false

/-! ## Invariants -/

/-- Memory is in its canonical form: equal memories are equal data. -/
def State.MemCanonical (s : State) : Prop := Memory.wf s.cfg.fontBase s.mem = true

/-- Under ADDR_POLICY = fault the program counter stays at most 0x10FE (45_index_jump_random.md R111)
and every stack entry at most 0x1000 (41_system.md R91). -/
def State.PcInBounds (s : State) : Prop :=
  s.cfg.addrPolicy = .fault → s.pc.toNat ≤ 0x10FE ∧ ∀ j : Fin 16, s.stack[j.val].toNat ≤ 0x1000

end Sys2Proof.Machine
end

