-- ==== Sys2Proof/Certificates/Slice0/Obligations.lean ====
section
/-! DEFINITION. The statements for the provers. In every statement about `exec`, the state is the one
the fetch left: its `pc` is A + 2 (40_cycle.md R79), and a frame without `Part.pc` says PC stays
there. -/

open Sys2Proof Sys2Proof.Machine

/-! ## Encoding -/

/-- Words written out bit by bit from the opcode map decode to what they stand for
(95_test_vectors.md W1 and V-DEC). -/
def Obligations.SpecWordsDecode : Prop :=
  decode 0x1234 = .instr (.jp 0x234) ∧ decode 0x8AB4 = .instr (.addReg 10 11) ∧
  decode 0xD12F = .instr (.drw 1 2 15) ∧ decode 0x8126 = .instr (.shr 1 2) ∧
  decode 0xF365 = .instr (.ldVxMem 3) ∧ decode 0x0ABC = .instr (.sys 0xABC) ∧
  decode 0x00E0 = .instr .cls ∧ decode 0x00EE = .instr .ret ∧
  decode 0x5120 = .instr (.seReg 1 2) ∧ decode 0xE1A1 = .instr (.sknp 1) ∧
  decode 0x5001 = .unknown 0x5001 ∧ decode 0x8AB8 = .unknown 0x8AB8 ∧
  decode 0xF130 = .unknown 0xF130

/-- Decoding the encoding of a well-formed instruction gives it back, every operand at every value
its field admits (30_encoding.md R62, R72). -/
def Obligations.DecodeInvertsEncode : Prop :=
  ∀ i : Instr, i.wellFormed = true → decode (encode i) = .instr i

/-- R72: a word that is not unknown is the encoding of its decoding, which is well formed, and an
unknown word is carried by the unknown variant. -/
def Obligations.EncodeInvertsDecode : Prop :=
  ∀ w : Word,
    (∀ i, decode w = .instr i → encode i = w ∧ i.wellFormed = true) ∧
    (∀ u, decode w = .unknown u → u = w)

/-- How many rows of the opcode map match a word (30_encoding.md R64): two for 00E0 and 00EE, none for
an unknown word, one for every other; and a word is unknown exactly when no row matches it. -/
def Obligations.RowsMatchingEachWord : Prop :=
  ∀ w : Word,
    ((∃ u, decode w = .unknown u) ↔ ∀ r ∈ opcodeMap, r.matchesWord w = false) ∧
    (opcodeMap.filter (·.matchesWord w)).length =
      (if w = 0x00E0 ∨ w = 0x00EE then 2 else if decode w = .unknown w then 0 else 1)

/-- 30_encoding.md sections 2 and 3: the unknown words, family by family; a = bits 15:12, d = bits
3:0, kk = bits 7:0. -/
def Obligations.UnknownWordsByFamily : Prop :=
  ∀ w : Word, decode w = .unknown w ↔
    (w >>> 12 = 0x5 ∧ w &&& 0xF ≠ 0) ∨
    (w >>> 12 = 0x8 ∧ w &&& 0xF ∈ [0x8, 0x9, 0xA, 0xB, 0xC, 0xD, 0xF]) ∨
    (w >>> 12 = 0x9 ∧ w &&& 0xF ≠ 0) ∨
    (w >>> 12 = 0xE ∧ w &&& 0xFF ∉ [0x9E, 0xA1]) ∨
    (w >>> 12 = 0xF ∧ w &&& 0xFF ∉ [0x07, 0x0A, 0x15, 0x18, 0x1E, 0x29, 0x33, 0x55, 0x65])

/-! ## The step -/

/-- When the bytes at PC decode to an instruction, the step is `exec` of it on the state with PC
advanced by 2 (40_cycle.md R76 to R79), and the instruction is well formed. -/
def Obligations.StepRunsDecodedInstruction : Prop :=
  ∀ s w i, s.Executes w i → step s = exec i (s.setPC (s.pc + 2)) ∧ i.wellFormed = true

/-- The fetch reads `mem[A] * 256 + mem[A+1]` (20_memory.md R43), each address mod 4096 where
ADDR_POLICY = wrap lets it be 4096 or more. -/
def Obligations.FetchIsBigEndian : Prop :=
  ∀ s : State, s.Readable s.pc.toNat → s.Readable (s.pc.toNat + 1) →
    ∃ w, s.fetch = .ok w ∧
      w.toNat = (s.peek (s.pc.toNat % 4096)).toNat * 256 + (s.peek ((s.pc.toNat + 1) % 4096)).toNat

/-- A fetch whose first not readable address is A + k faults with address A, no word and that
effective address, and changes nothing else (40_cycle.md R77; 60_exceptions.md R134, R137). -/
def Obligations.FetchBeyondStoreFaults : Prop :=
  ∀ s k, s.run = .running → s.FirstUnreadable s.pc.toNat 2 k →
    step s = .next (s.faultedWith .memoryOutOfRange none (some (s.pc.toNat + k)))

/-- R80, R131: an unknown word raises UnknownOpcode with the word and its address, nothing else
changes, and PC stays A. -/
def Obligations.UnknownWordFaults : Prop :=
  ∀ s w, s.run = .running → s.fetch = .ok w → decode w = .unknown w →
    step s = .next (s.faultedWith .unknownOpcode (some w) none)

/-- R82: a step in WaitingForKey changes nothing and returns Ok(PC, 0, 1). -/
def Obligations.WaitingStepIsIdle : Prop :=
  ∀ s x, s.run = .waitingForKey x →
    step s = .next s ∧ s.perform .step = .next (s, .outcome (.ok s.pc false true))

/-- R83: a step in Faulted(f) changes nothing and returns Fault(f), and only `reset()` leaves
Faulted. -/
def Obligations.FaultedStepIsIdle : Prop :=
  ∀ s f, s.run = .faulted f →
    step s = .next s ∧ s.perform .step = .next (s, .outcome (.fault f)) ∧
    ∀ q t r, s.perform q = .next (t, r) → q ≠ .reset → t.run = .faulted f

/-- R81: the outcome of a step. -/
def Obligations.StepOutcomeReports : Prop :=
  ∀ s t, step s = .next t →
    (∀ f, t.run = .faulted f → s.perform .step = .next (t, .outcome (.fault f))) ∧
    ((∀ f, t.run ≠ .faulted f) → ∃ dirty blocked,
      s.perform .step = .next (t, .outcome (.ok t.pc dirty blocked)) ∧
      (dirty = true ↔ ∃ w, s.Executes w .cls ∨ ∃ x y n, s.Executes w (.drw x y n)) ∧
      (blocked = true ↔ ∃ x, t.run = .waitingForKey x))

/-! ## Family 0, jumps and calls -/

/-- SYS nnn: nothing (R89). -/
def Obligations.SysDoesNothing : Prop :=
  (∀ w : Word, w &&& 0xF000 = 0x0000 → w ≠ 0x00E0 → w ≠ 0x00EE →
    decode w = .instr (.sys (fieldsOf w).nnn)) ∧
  ∀ nnn s, exec (.sys nnn) s = .next s

/-- CLS: every pixel 0, VF and everything else unchanged, and the step is dirty (R90). -/
def Obligations.ClsClearsDisplay : Prop :=
  decode 0x00E0 = .instr .cls ∧
  (∀ s, ∃ t, exec .cls s = .next t ∧ (∀ px py, t.disp.pixel px py = false) ∧ Frame [.disp] s t) ∧
  ∀ (s : State) w, s.Executes w .cls → ∃ t, s.perform .step = .next (t, .outcome (.ok t.pc true false))

/-- RET: pop into PC, the entries unchanged; StackUnderflow when SP = 0 (R91). -/
def Obligations.RetPopsReturnAddress : Prop :=
  decode 0x00EE = .instr .ret ∧
  (∀ s : State, ∀ h : 0 < s.sp.val, ∃ t, exec .ret s = .next t ∧ t.sp.val = s.sp.val - 1 ∧
    t.pc = s.stack[s.sp.val - 1]'(by omega) ∧ Frame [.sp, .pc] s t) ∧
  ∀ s w, s.Executes w .ret → s.sp.val = 0 →
    step s = .next (s.faultedWith .stackUnderflow (some w) none)

/-- CALL nnn: push A + 2 in the next slot and jump; StackOverflow when SP = 16 (R93). -/
def Obligations.CallPushesReturnAddress : Prop :=
  EncodedAs 0xF000 0x2000 (fun f => .call f.nnn) ∧
  (∀ nnn (s : State), s.sp.val < 16 → ∃ t, exec (.call nnn) s = .next t ∧ t.sp.val = s.sp.val + 1 ∧
    t.pc.toNat = nnn.toNat ∧
    (∀ j : Fin 16, t.stack[j.val] = if j.val = s.sp.val then s.pc else s.stack[j.val]) ∧
    Frame [.sp, .stack, .pc] s t) ∧
  ∀ s w nnn, s.Executes w (.call nnn) → s.sp.val = 16 →
    step s = .next (s.faultedWith .stackOverflow (some w) none)

/-- A call and the return at its target restore PC to the instruction after the call and SP to its
prior value (95_test_vectors.md W4); nothing else changes but the entry the call filled. -/
def Obligations.CallThenReturnComesBack : Prop :=
  ∀ nnn (s : State), s.sp.val < 16 → ∃ t u, exec (.call nnn) s = .next t ∧
    exec .ret t.advance = .next u ∧ u.pc = s.pc ∧ u.sp = s.sp ∧
    (∀ j : Fin 16, u.stack[j.val] = if j.val = s.sp.val then s.pc else s.stack[j.val]) ∧
    Frame [.stack] s u

/-- JP nnn (R92) and JP V0, nnn (R111): PC is the target, nothing else changes. -/
def Obligations.JumpsSetPc : Prop :=
  EncodedAs 0xF000 0x1000 (fun f => .jp f.nnn) ∧ EncodedAs 0xF000 0xB000 (fun f => .jpV0 f.nnn) ∧
  (∀ nnn s, ∃ t, exec (.jp nnn) s = .next t ∧ t.pc.toNat = nnn.toNat ∧ Frame [.pc] s t) ∧
  ∀ nnn s, ∃ t, exec (.jpV0 nnn) s = .next t ∧ t.pc.toNat = nnn.toNat + (s.getV 0).toNat ∧
    Frame [.pc] s t

/-! ## Skips, loads and additions -/

/-- SE Vx, kk and SNE Vx, kk (R94, R95). -/
def Obligations.ByteSkips : Prop :=
  EncodedAs 0xF000 0x3000 (fun f => .seByte f.x f.kk) ∧
  EncodedAs 0xF000 0x4000 (fun f => .sneByte f.x f.kk) ∧
  (∀ x kk s, ∃ t, exec (.seByte x kk) s = .next t ∧
    t.pc = (if s.getV x = kk then s.pc + 2 else s.pc) ∧ Frame [.pc] s t) ∧
  ∀ x kk s, ∃ t, exec (.sneByte x kk) s = .next t ∧
    t.pc = (if s.getV x = kk then s.pc else s.pc + 2) ∧ Frame [.pc] s t

/-- SE Vx, Vy and SNE Vx, Vy (R96, R99); a word of these families with another low nibble is
unknown. -/
def Obligations.RegisterSkips : Prop :=
  EncodedAs 0xF00F 0x5000 (fun f => .seReg f.x f.y) ∧
  EncodedAs 0xF00F 0x9000 (fun f => .sneReg f.x f.y) ∧
  (∀ w : Word, w >>> 12 = 0x5 ∨ w >>> 12 = 0x9 → w &&& 0xF ≠ 0 → decode w = .unknown w) ∧
  (∀ x y s, ∃ t, exec (.seReg x y) s = .next t ∧
    t.pc = (if s.getV x = s.getV y then s.pc + 2 else s.pc) ∧ Frame [.pc] s t) ∧
  ∀ x y s, ∃ t, exec (.sneReg x y) s = .next t ∧
    t.pc = (if s.getV x = s.getV y then s.pc else s.pc + 2) ∧ Frame [.pc] s t

/-- SKP Vx and SKNP Vx (R117, R118): the low nibble of V[x] names the key. -/
def Obligations.KeySkips : Prop :=
  EncodedAs 0xF0FF 0xE09E (fun f => .skp f.x) ∧ EncodedAs 0xF0FF 0xE0A1 (fun f => .sknp f.x) ∧
  (∀ x s, ∃ t, exec (.skp x) s = .next t ∧ Frame [.pc] s t ∧
    ∀ k : Fin 16, (s.getV x).toNat % 16 = k.val →
      t.pc = (if s.key[k.val] = true then s.pc + 2 else s.pc)) ∧
  ∀ x s, ∃ t, exec (.sknp x) s = .next t ∧ Frame [.pc] s t ∧
    ∀ k : Fin 16, (s.getV x).toNat % 16 = k.val →
      t.pc = (if s.key[k.val] = false then s.pc + 2 else s.pc)

/-- LD Vx, kk (R97), LD Vx, Vy (R101) and LD Vx, DT (R119) write their destination only. -/
def Obligations.LoadsWriteDestination : Prop :=
  EncodedAs 0xF000 0x6000 (fun f => .ldByte f.x f.kk) ∧
  EncodedAs 0xF00F 0x8000 (fun f => .ldReg f.x f.y) ∧
  EncodedAs 0xF0FF 0xF007 (fun f => .ldVxDT f.x) ∧
  (∀ x kk s, ∃ t, exec (.ldByte x kk) s = .next t ∧ t.getV x = kk ∧ Frame [.v x] s t) ∧
  (∀ x y s, ∃ t, exec (.ldReg x y) s = .next t ∧ t.getV x = s.getV y ∧ Frame [.v x] s t) ∧
  ∀ x s, ∃ t, exec (.ldVxDT x) s = .next t ∧ t.getV x = s.dt ∧ Frame [.v x] s t

/-- ADD Vx, kk (R98): the sum mod 256; VF is not written unless it is the destination. -/
def Obligations.AddByteHasNoFlag : Prop :=
  EncodedAs 0xF000 0x7000 (fun f => .addByte f.x f.kk) ∧
  ∀ x kk s, ∃ t, exec (.addByte x kk) s = .next t ∧
    (t.getV x).toNat = ((s.getV x).toNat + kk.toNat) % 256 ∧ Frame [.v x] s t

/-! ## The ALU -/

/-- OR, AND and XOR (R102 to R104): bit by bit; VF is not written unless it is the destination. -/
def Obligations.LogicIsBitwise : Prop :=
  EncodedAs 0xF00F 0x8001 (fun f => .orReg f.x f.y) ∧
  EncodedAs 0xF00F 0x8002 (fun f => .andReg f.x f.y) ∧
  EncodedAs 0xF00F 0x8003 (fun f => .xorReg f.x f.y) ∧
  (∀ x y s, ∃ t, exec (.orReg x y) s = .next t ∧ Frame [.v x] s t ∧
    ∀ b, (t.getV x).getLsbD b = ((s.getV x).getLsbD b || (s.getV y).getLsbD b)) ∧
  (∀ x y s, ∃ t, exec (.andReg x y) s = .next t ∧ Frame [.v x] s t ∧
    ∀ b, (t.getV x).getLsbD b = ((s.getV x).getLsbD b && (s.getV y).getLsbD b)) ∧
  ∀ x y s, ∃ t, exec (.xorReg x y) s = .next t ∧ Frame [.v x] s t ∧
    ∀ b, (t.getV x).getLsbD b = ((s.getV x).getLsbD b ^^ (s.getV y).getLsbD b)

/-- ADD Vx, Vy (R105): V[x] is the sum mod 256, then VF is the carry, so with x = F it is the carry. -/
def Obligations.AddSetsSumAndCarry : Prop :=
  EncodedAs 0xF00F 0x8004 (fun f => .addReg f.x f.y) ∧
  ∀ x y s, ∃ t, exec (.addReg x y) s = .next t ∧
    (x ≠ vf → (t.getV x).toNat = ((s.getV x).toNat + (s.getV y).toNat) % 256) ∧
    t.getV vf = (if (s.getV x).toNat + (s.getV y).toNat > 255 then 1 else 0) ∧
    Frame [.v x, .v vf] s t

/-- SUB and SUBN (R106, R108): the difference mod 256, then VF = 1 iff minuend ≥ subtrahend. -/
def Obligations.SubtractsSetNotBorrow : Prop :=
  EncodedAs 0xF00F 0x8005 (fun f => .subReg f.x f.y) ∧
  EncodedAs 0xF00F 0x8007 (fun f => .subnReg f.x f.y) ∧
  (∀ x y s, ∃ t, exec (.subReg x y) s = .next t ∧
    (x ≠ vf → ((t.getV x).toNat : Int) = ((s.getV x).toNat - (s.getV y).toNat : Int) % 256) ∧
    t.getV vf = (if (s.getV x).toNat ≥ (s.getV y).toNat then 1 else 0) ∧
    Frame [.v x, .v vf] s t) ∧
  ∀ x y s, ∃ t, exec (.subnReg x y) s = .next t ∧
    (x ≠ vf → ((t.getV x).toNat : Int) = ((s.getV y).toNat - (s.getV x).toNat : Int) % 256) ∧
    t.getV vf = (if (s.getV y).toNat ≥ (s.getV x).toNat then 1 else 0) ∧
    Frame [.v x, .v vf] s t

/-- SHR and SHL (R107, R109): the source by SHIFT_SOURCE, then VF is the bit shifted out. -/
def Obligations.ShiftsSetBitShiftedOut : Prop :=
  EncodedAs 0xF00F 0x8006 (fun f => .shr f.x f.y) ∧
  EncodedAs 0xF00F 0x800E (fun f => .shl f.x f.y) ∧
  ∀ x y (s : State) a,
    (s.cfg.shift = .vy → a = s.getV y) → (s.cfg.shift = .vx → a = s.getV x) →
    (∃ t, exec (.shr x y) s = .next t ∧ (x ≠ vf → (t.getV x).toNat = a.toNat / 2) ∧
      (t.getV vf).toNat = a.toNat % 2 ∧ Frame [.v x, .v vf] s t) ∧
    ∃ t, exec (.shl x y) s = .next t ∧ (x ≠ vf → (t.getV x).toNat = a.toNat * 2 % 256) ∧
      (t.getV vf).toNat = a.toNat / 128 ∧ Frame [.v x, .v vf] s t

/-! ## Address register, timers, random -/

/-- LD I, nnn (R110), ADD I, Vx (R123) and LD F, Vx (R124): I, and nothing else. -/
def Obligations.AddressRegisterWrites : Prop :=
  EncodedAs 0xF000 0xA000 (fun f => .ldI f.nnn) ∧ EncodedAs 0xF0FF 0xF01E (fun f => .addIVx f.x) ∧
  EncodedAs 0xF0FF 0xF029 (fun f => .ldFVx f.x) ∧
  (∀ nnn s, ∃ t, exec (.ldI nnn) s = .next t ∧ t.I.toNat = nnn.toNat ∧ Frame [.I] s t) ∧
  (∀ x s, ∃ t, exec (.addIVx x) s = .next t ∧
    t.I.toNat = (s.I.toNat + (s.getV x).toNat) % 65536 ∧ Frame [.I] s t) ∧
  ∀ x s, ∃ t, exec (.ldFVx x) s = .next t ∧
    t.I.toNat = s.cfg.fontBase.val + 5 * ((s.getV x).toNat % 16) ∧ Frame [.I] s t

/-- LD DT, Vx (R121) and LD ST, Vx (R122); after the latter the tone sounds exactly when V[x] is not
0. -/
def Obligations.TimerWrites : Prop :=
  EncodedAs 0xF0FF 0xF015 (fun f => .ldDTVx f.x) ∧ EncodedAs 0xF0FF 0xF018 (fun f => .ldSTVx f.x) ∧
  (∀ x s, ∃ t, exec (.ldDTVx x) s = .next t ∧ t.dt = s.getV x ∧ Frame [.dt] s t) ∧
  ∀ x s, ∃ t, exec (.ldSTVx x) s = .next t ∧ t.st = s.getV x ∧
    (t.soundActive = true ↔ s.getV x ≠ 0) ∧ Frame [.st] s t

/-- RND Vx, kk: the drawn byte AND kk. The drawn byte is the model's free value (log entry 4), and
each execution takes the next draw; the statement holds whatever the bytes are. -/
def Obligations.RandomIsMasked : Prop :=
  EncodedAs 0xF000 0xC000 (fun f => .rnd f.x f.kk) ∧
  ∀ x kk s, ∃ t, exec (.rnd x kk) s = .next t ∧
    t.getV x = Config.randomByte s.draws &&& kk ∧ t.draws = s.draws + 1 ∧
    Frame [.v x, .draws] s t

/-! ## Drawing -/

/-- DRW Vx, Vy, n when every row is readable (46_draw.md R113 to R115): a pixel changes exactly when a
1 bit of the sprite lands on it, and VF is written last, 1 on a collision, else 0. -/
def Obligations.DrawXorsSprite : Prop :=
  EncodedAs 0xF000 0xD000 (fun f => .drw f.x f.y f.n) ∧
  ∀ x y n (s : State), (∀ r, r < n.val → s.Readable (s.I.toNat + r)) →
    ∃ t, exec (.drw x y n) s = .next t ∧
      (∀ px py, t.disp.pixel px py ≠ s.disp.pixel px py ↔ s.SpriteCovers x y n px py) ∧
      (s.SpriteCollides x y n → t.getV vf = 1) ∧ (¬ s.SpriteCollides x y n → t.getV vf = 0) ∧
      Frame [.disp, .v vf] s t

/-- DRW whose first not readable row is r faults with that address; nothing else changes
(46_draw.md R113; 60_exceptions.md R133, R134). -/
def Obligations.DrawBeyondStoreFaults : Prop :=
  ∀ s w x y n r, s.Executes w (.drw x y n) → s.FirstUnreadable s.I.toNat n.val r →
    step s = .next (s.faultedWith .memoryOutOfRange (some w) (some (s.I.toNat + r)))

/-- Drawing the same sprite twice at the same position restores every pixel (46_draw.md R116). The
second draw sets VF = 1 exactly when a 1 bit of the sprite lands on a pixel that was off before the
first (R113; log entry 18 on the spec's own inference in R116, which leaves this condition out); so on
a display that is dark under the sprite, exactly when the sprite has a 1 bit, as R116 says. -/
def Obligations.DoubleDrawRestores : Prop :=
  ∀ x y n (s t : State), (∀ r, r < n.val → s.Readable (s.I.toNat + r)) →
    exec (.drw x y n) s = .next t → t.getV x = s.getV x → t.getV y = s.getV y →
    ∃ u, exec (.drw x y n) t = .next u ∧
      (∀ px py, u.disp.pixel px py = s.disp.pixel px py) ∧
      ((∃ px py, s.SpriteCovers x y n px py ∧ s.disp.pixel px py = false) → u.getV vf = 1) ∧
      ((∀ px py, s.SpriteCovers x y n px py → s.disp.pixel px py = true) → u.getV vf = 0) ∧
      ((∀ px py, s.SpriteCovers x y n px py → s.disp.pixel px py = false) →
        (∃ r, r < n.val ∧ s.spriteRow r ≠ 0) → u.getV vf = 1) ∧
      ((∀ r, r < n.val → s.spriteRow r = 0) → u.getV vf = 0)

/-! ## Key wait -/

/-- LD Vx, K (R120): the machine waits; PC stays A + 2 and nothing else changes. A later
not-pressed-to-pressed change stores the key's number and ends the wait. -/
def Obligations.KeyWaitStartsAndEnds : Prop :=
  EncodedAs 0xF0FF 0xF00A (fun f => .ldVxK f.x) ∧
  (∀ x s, ∃ t, exec (.ldVxK x) s = .next t ∧ t.run = .waitingForKey x ∧ Frame [.run] s t) ∧
  ∀ (s : State) k x, s.KeyCompletes k true x →
    ∃ t, s.perform (.setKeyState k.val true) = .next (t, .none) ∧
      t.run = .running ∧ (t.getV x).toNat = k.val ∧ t.pc = s.pc

/-- R144, R145: `set_key_state` writes its key; it completes a wait exactly on a not-pressed-to-pressed
change; nothing else changes; an index outside 0..15 is refused. -/
def Obligations.KeyStateChanges : Prop :=
  (∀ (s : State) (k : Fin 16) p, ∃ t, s.perform (.setKeyState k.val p) = .next (t, .none) ∧
    (∀ j : Fin 16, t.key[j.val] = if j = k then p else s.key[j.val]) ∧
    (∀ x, s.KeyCompletes k p x → t.run = .running ∧
      ∀ y, t.getV y = if y = x then BitVec.ofNat 8 k.val else s.getV y) ∧
    ((∀ x, ¬ s.KeyCompletes k p x) → t.run = s.run ∧ ∀ y, t.getV y = s.getV y) ∧
    t = { s with v := t.v, key := t.key, run := t.run }) ∧
  ∀ (s : State) k p, 16 ≤ k → s.perform (.setKeyState k p) = .refused (.keyIndexOutOfRange k)

/-! ## Memory instructions -/

/-- LD B, Vx (R125): the three decimal digits at I, I + 1, I + 2; every other byte and I unchanged;
the first failing address in that order is reported and nothing is written. -/
def Obligations.BcdStoresDigits : Prop :=
  EncodedAs 0xF0FF 0xF033 (fun f => .ldBVx f.x) ∧
  (∀ x (s : State), s.MemCanonical → (∀ k, k < 3 → s.Writable (s.I.toNat + k)) →
    ∃ t, exec (.ldBVx x) s = .next t ∧ Frame [.mem] s t ∧
      (t.peek (s.I.toNat % 4096)).toNat = (s.getV x).toNat / 100 ∧
      (t.peek ((s.I.toNat + 1) % 4096)).toNat = (s.getV x).toNat / 10 % 10 ∧
      (t.peek ((s.I.toNat + 2) % 4096)).toNat = (s.getV x).toNat % 10 ∧
      ∀ a, (∀ k, k < 3 → resolveAddr s.cfg.addrPolicy (s.I.toNat + k) ≠ .ok a) →
        t.peek a = s.peek a) ∧
  ∀ s w x k, s.Executes w (.ldBVx x) → s.FirstUnwritable s.I.toNat 3 k →
    step s = .next (s.faultedByWrite w (s.I.toNat + k))

/-- LD [I], Vx (R126): V0..Vx at I .. I + x; every other byte and I unchanged; the first failing
address in that order is reported and nothing is written. -/
def Obligations.BlockStoreCopiesRegisters : Prop :=
  EncodedAs 0xF0FF 0xF055 (fun f => .ldMemVx f.x) ∧
  (∀ x (s : State), s.MemCanonical → (∀ k, k < x.val + 1 → s.Writable (s.I.toNat + k)) →
    ∃ t, exec (.ldMemVx x) s = .next t ∧ Frame [.mem] s t ∧
      (∀ j : Reg, j ≤ x → t.peek ((s.I.toNat + j.val) % 4096) = s.getV j) ∧
      ∀ a, (∀ k, k < x.val + 1 → resolveAddr s.cfg.addrPolicy (s.I.toNat + k) ≠ .ok a) →
        t.peek a = s.peek a) ∧
  ∀ s w x k, s.Executes w (.ldMemVx x) → s.FirstUnwritable s.I.toNat (x.val + 1) k →
    step s = .next (s.faultedByWrite w (s.I.toNat + k))

/-- LD Vx, [I] (R127): V0..Vx from I .. I + x; every other register, memory and I unchanged; the first
failing address is reported and no register is written. -/
def Obligations.BlockLoadCopiesMemory : Prop :=
  EncodedAs 0xF0FF 0xF065 (fun f => .ldVxMem f.x) ∧
  (∀ x (s : State), (∀ k, k < x.val + 1 → s.Readable (s.I.toNat + k)) →
    ∃ t, exec (.ldVxMem x) s = .next t ∧
      (∀ j : Reg, t.getV j = if j ≤ x then s.peek ((s.I.toNat + j.val) % 4096) else s.getV j) ∧
      Frame ((List.finRange 16).map .v) s t) ∧
  ∀ s w x k, s.Executes w (.ldVxMem x) → s.FirstUnreadable s.I.toNat (x.val + 1) k →
    step s = .next (s.faultedWith .memoryOutOfRange (some w) (some (s.I.toNat + k)))

/-! ## Rules of the whole machine -/

/-- Every step answers a next state: no fault and no refusal stops the model, since a fault of the
block is the run state Faulted (60_exceptions.md R130; log entry 6). -/
def Obligations.StepAlwaysAnswers : Prop := ∀ s, ∃ t, step s = .next t

/-- R133: faults are precise: a step that raises leaves every field except `run`, and the record holds
the address of the instruction. -/
def Obligations.FaultsArePrecise : Prop :=
  ∀ s t f, s.run = .running → step s = .next t → t.run = .faulted f →
    t = { s with run := .faulted f } ∧ f.addr = s.pc

/-- The step rows of the run-state table (40_cycle.md R88): a wait starts exactly with Fx0A, and a step
leaves a wait or a fault as it is. -/
def Obligations.StepChangesRunState : Prop :=
  ∀ s t, step s = .next t →
    (s.run ≠ .running → t.run = s.run) ∧
    (s.run = .running → ∀ x, t.run = .waitingForKey x ↔ ∃ w, s.Executes w (.ldVxK x))

/-- R21: where a step leaves PC, by the instruction at address A. -/
def Obligations.PcAfterStep : Prop :=
  ∀ s t, step s = .next t →
    (s.run ≠ .running → t.pc = s.pc) ∧
    (∀ f, t.run = .faulted f → t.pc = s.pc) ∧
    ∀ w i, s.Executes w i → (∀ f, t.run ≠ .faulted f) →
      match i with
      | .seByte x kk => t.pc = if s.getV x = kk then s.pc + 4 else s.pc + 2
      | .sneByte x kk => t.pc = if s.getV x = kk then s.pc + 2 else s.pc + 4
      | .seReg x y => t.pc = if s.getV x = s.getV y then s.pc + 4 else s.pc + 2
      | .sneReg x y => t.pc = if s.getV x = s.getV y then s.pc + 2 else s.pc + 4
      | .skp x => t.pc = if s.keyNamedBy x = true then s.pc + 4 else s.pc + 2
      | .sknp x => t.pc = if s.keyNamedBy x = true then s.pc + 2 else s.pc + 4
      | .jp nnn | .call nnn => t.pc = nnn.setWidth 16
      | .jpV0 nnn => t.pc = nnn.setWidth 16 + (s.getV 0).setWidth 16
      | .ret => t.pc = s.stack[s.sp.val - 1]'(by omega)
      | _ => t.pc = s.pc + 2

/-- The instructions that write VF (10_state.md R17): the five ALU ones with a flag and DRW, or one whose
destination is VF, or Fx65 with x = F. -/
def Obligations.VfWriters : Prop :=
  ∀ s t, step s = .next t → t.getV vf ≠ s.getV vf → ∃ w i, s.Executes w i ∧
    ((∃ x y, i = .addReg x y ∨ i = .subReg x y ∨ i = .shr x y ∨ i = .subnReg x y ∨ i = .shl x y) ∨
     (∃ x y n, i = .drw x y n) ∨
     (∃ kk, i = .ldByte vf kk ∨ i = .addByte vf kk ∨ i = .rnd vf kk) ∨
     (∃ y, i = .ldReg vf y ∨ i = .orReg vf y ∨ i = .andReg vf y ∨ i = .xorReg vf y) ∨
     i = .ldVxDT vf ∨ i = .ldVxMem vf)

/-- The instructions that write I (10_state.md R19). -/
def Obligations.AddressRegisterWriters : Prop :=
  ∀ s t, step s = .next t → t.I ≠ s.I → ∃ w i, s.Executes w i ∧
    ((∃ nnn, i = .ldI nnn) ∨ ∃ x, i = .addIVx x ∨ i = .ldFVx x)

/-- Only CALL writes a stack entry; only CALL and RET change the depth (10_state.md R24). -/
def Obligations.StackWriters : Prop :=
  ∀ s t, step s = .next t →
    (t.stack ≠ s.stack → ∃ w nnn, s.Executes w (.call nnn)) ∧
    (t.sp ≠ s.sp → ∃ w, s.Executes w .ret ∨ ∃ nnn, s.Executes w (.call nnn))

/-- R85: a step changes DT only by Fx15 and ST only by Fx18, to the register's value, and never ticks. -/
def Obligations.TimersChangeOnlyByWrites : Prop :=
  ∀ s t, step s = .next t →
    (t.dt ≠ s.dt → ∃ w x, s.Executes w (.ldDTVx x) ∧ t.dt = s.getV x) ∧
    (t.st ≠ s.st → ∃ w x, s.Executes w (.ldSTVx x) ∧ t.st = s.getV x)

/-- The display is changed only by 00E0, Dxyn and reset (10_state.md R28): a `run_for` that changes it
executes one of the two in some step, the one after its first `m`. -/
def Obligations.DisplayWriters : Prop :=
  ∀ (s t : State) q r, s.perform q = .next (t, r) → t.disp ≠ s.disp →
    q = .reset ∨
    (q = .step ∧ ∃ w, s.Executes w .cls ∨ ∃ x y n, s.Executes w (.drw x y n)) ∨
    ∃ k m, q = .runFor k ∧ m < k ∧
      ∃ w, (s.runFor m).1.Executes w .cls ∨ ∃ x y n, (s.runFor m).1.Executes w (.drw x y n)

/-- Only the host writes the keys (10_state.md R29), and no operation changes the parameters
(10_state.md R15; log entry 1). -/
def Obligations.KeysAndParametersAreTheHosts : Prop :=
  ∀ (s t : State) q r, s.perform q = .next (t, r) →
    t.cfg = s.cfg ∧ (t.key ≠ s.key → q = .reset ∨ ∃ k p, q = .setKeyState k p)

/-- A step changes memory only by Fx33 and Fx55 (20_memory.md R39, R50). -/
def Obligations.MemoryWriters : Prop :=
  ∀ s t, step s = .next t → t.mem ≠ s.mem →
    ∃ w x, s.Executes w (.ldBVx x) ∨ s.Executes w (.ldMemVx x)

/-- Under LOW_WRITE_POLICY = fault no step changes a byte of the reserved region, so the glyphs stay
(20_memory.md R48; 70_reset_and_hazards.md R161). -/
def Obligations.ReservedRegionStays : Prop :=
  ∀ s t, s.cfg.lowWritePolicy = .fault → step s = .next t → ∀ a, a < 0x200 → t.peek a = s.peek a

/-! ## Invariants -/

/-- Every step keeps memory in its canonical form, which is the model's (log entry 9). -/
def Obligations.StepKeepsMemoryCanonical : Prop :=
  ∀ s t, s.MemCanonical → step s = .next t → t.MemCanonical

/-- So does every host operation, `run_for` and `load` among them. -/
def Obligations.HostKeepsMemoryCanonical : Prop :=
  ∀ (s t : State) q r, s.MemCanonical → s.perform q = .next (t, r) → t.MemCanonical

/-- Every step keeps PC and the return addresses in bounds under ADDR_POLICY = fault (41_system.md R91;
45_index_jump_random.md R111; the bounds are the spec's own inference). -/
def Obligations.StepKeepsPcInBounds : Prop :=
  ∀ s t, s.PcInBounds → step s = .next t → t.PcInBounds

/-- The two invariants hold after reset: the canonical form, which is the model's (log entry 9), and
the bounds, which are the spec's own inference (41_system.md R91; 45_index_jump_random.md R111). -/
def Obligations.ResetMeetsInvariants : Prop :=
  State.reset.MemCanonical ∧ State.reset.PcInBounds

/-! ## Host operations -/

/-- R35, R151: `reset()` from any state, and the machine when created, put every field at its reset
value, the 80 glyph bytes of R42 included; the parameters stay. -/
def Obligations.ResetPutsEveryField : Prop :=
  State.reset.IsReset ∧
  ∀ s : State, ∃ t, s.perform .reset = .next (t, .none) ∧ t.IsReset ∧ t.cfg = s.cfg

/-- R141: `tick()` decrements each timer that is not 0 and changes nothing else; it has no effect in
Faulted. -/
def Obligations.TickDecrementsTimers : Prop :=
  ∀ s : State,
    (∀ f, s.run = .faulted f → s.perform .tick = .next (s, .none)) ∧
    ((∀ f, s.run ≠ .faulted f) → ∃ t, s.perform .tick = .next (t, .none) ∧
      t.dt.toNat = s.dt.toNat - 1 ∧ t.st.toNat = s.st.toNat - 1 ∧ Frame [.dt, .st] s t)

/-- R136, R153: `load` copies the image to 0x200 and changes nothing else; a longer image than 3584
bytes is refused with no change. -/
def Obligations.LoadCopiesImage : Prop :=
  (∀ (s : State) bytes, bytes.length > 3584 →
    s.perform (.load bytes) = .next (s, .loadImageTooLarge)) ∧
  ∀ (s : State) bytes, s.MemCanonical → bytes.length ≤ 3584 →
    ∃ t, s.perform (.load bytes) = .next (t, .loaded) ∧ Frame [.mem] s t ∧
      (∀ j, ∀ h : j < bytes.length, t.peek (0x200 + j) = bytes[j]) ∧
      ∀ a, a < 0x200 ∨ 0x200 + bytes.length ≤ a → t.peek a = s.peek a

/-- `run_for(n)` (40_cycle.md R86) counts executed steps in `cyc`: n of them when it ends Running, at
most n otherwise. With n = 0 or on a machine that is not Running it does nothing and replies the status.
With n = 1 it is one step and that step's reply: a step that faults is not counted
(95_test_vectors.md RL10); after any other, `cyc` is one more and a tick comes exactly when the count
is then a multiple of CYCLES_PER_TICK. -/
def Obligations.RunForCountsSteps : Prop :=
  (∀ (s : State) n,
    (n = 0 ∨ s.run ≠ .running →
      s.perform (.runFor n) = .next (s, .outcome (s.outcome false))) ∧
    ∃ t o, s.perform (.runFor n) = .next (t, .outcome o) ∧
      s.cyc ≤ t.cyc ∧ t.cyc ≤ s.cyc + n ∧ (t.run = .running → t.cyc = s.cyc + n)) ∧
  (∀ s t f, s.run = .running → step s = .next t → t.run = .faulted f →
    s.perform (.runFor 1) = .next (t, .outcome (.fault f)) ∧ t.cyc = s.cyc) ∧
  ∀ s t, s.run = .running → step s = .next t → (∀ f, t.run ≠ .faulted f) →
    ∃ u o, s.perform .step = .next (t, .outcome o) ∧
      s.perform (.runFor 1) = .next (u, .outcome o) ∧
      u = { t with cyc := s.cyc + 1, dt := u.dt, st := u.st } ∧
      (u.cyc % s.cfg.ticksEvery = 0 →
        u.dt.toNat = t.dt.toNat - 1 ∧ u.st.toNat = t.st.toNat - 1) ∧
      (u.cyc % s.cfg.ticksEvery ≠ 0 → u.dt = t.dt ∧ u.st = t.st)

/-- `run_for` counts "across calls" (40_cycle.md R86): m + n steps are m steps and then n, and the reply
is that of the last of the two runs that executes a step. -/
def Obligations.RunForSplits : Prop :=
  ∀ (s : State) m n,
    (s.runFor (m + n)).1 = ((s.runFor m).1.runFor n).1 ∧
    (0 < n → (s.runFor m).1.run = .running →
      (s.runFor (m + n)).2 = ((s.runFor m).1.runFor n).2) ∧
    ((s.runFor m).1.run ≠ .running → (s.runFor (m + n)).2 = (s.runFor m).2)

/-- R142, R143, R146: the views return the display, the sound condition and the 2048 big-endian words of
memory, and change nothing. -/
def Obligations.ViewsReadState : Prop :=
  ∀ s : State,
    s.perform .display = .next (s, .display s.disp) ∧
    (∃ b, s.perform .soundActive = .next (s, .sound b) ∧ (b = true ↔ s.st ≠ 0)) ∧
    ∃ words, s.perform .dump = .next (s, .dump words) ∧ words.length = 2048 ∧
      ∀ j, ∀ h : j < words.length,
        words[j].toNat = (s.peek (2 * j)).toNat * 256 + (s.peek (2 * j + 1)).toNat
end

