-- ==== Sys2Proof/Laws/Decode.lean ====
section
/-! SUPPORT. What masking and field extraction give on a word built in one of the formats of
30_encoding.md R61. -/

namespace Sys2Proof

/-! ## Masked words -/

theorem formatNNN_and_high (a : BitVec 4) (nnn : BitVec 12) :
    formatNNN a nnn &&& 0xF000 = fieldAt a 12 := by
  unfold formatNNN fieldAt
  ext i hi
  interval_cases i <;> simp

theorem formatXKK_and_high (a : BitVec 4) (x : Reg) (kk : Byte) :
    formatXKK a x kk &&& 0xF000 = fieldAt a 12 := by
  unfold formatXKK fieldAt
  ext i hi
  interval_cases i <;> simp

theorem formatXKK_and_low (a : BitVec 4) (x : Reg) (kk : Byte) :
    formatXKK a x kk &&& 0xF0FF = fieldAt a 12 ||| fieldAt kk 0 := by
  unfold formatXKK fieldAt
  ext i hi
  interval_cases i <;> simp

theorem formatXYN_and_high (a : BitVec 4) (x y n : Fin 16) :
    formatXYN a x y n &&& 0xF000 = fieldAt a 12 := by
  unfold formatXYN fieldAt
  ext i hi
  interval_cases i <;> simp

theorem formatXYN_and_low (a : BitVec 4) (x y n : Fin 16) :
    formatXYN a x y n &&& 0xF00F = fieldAt a 12 ||| fieldAt (nibble n) 0 := by
  unfold formatXYN fieldAt
  ext i hi
  interval_cases i <;> simp

/-! ## Fields -/

@[simp] theorem toFin_nibble (x : Fin 16) : (nibble x).toFin = x := rfl

theorem fieldsOf_formatNNN (a : BitVec 4) (nnn : BitVec 12) :
    (fieldsOf (formatNNN a nnn)).nnn = nnn := by
  unfold formatNNN fieldAt fieldsOf
  ext i hi
  interval_cases i <;> simp

theorem fieldsOf_formatXKK_x (a : BitVec 4) (x : Reg) (kk : Byte) :
    (fieldsOf (formatXKK a x kk)).x = x := by
  have h : (formatXKK a x kk).extractLsb' 8 4 = nibble x := by
    unfold formatXKK fieldAt
    ext i hi
    interval_cases i <;> simp
  simp only [fieldsOf, h, toFin_nibble]

theorem fieldsOf_formatXKK_kk (a : BitVec 4) (x : Reg) (kk : Byte) :
    (fieldsOf (formatXKK a x kk)).kk = kk := by
  unfold formatXKK fieldAt fieldsOf
  ext i hi
  interval_cases i <;> simp

theorem fieldsOf_formatXYN_x (a : BitVec 4) (x y n : Fin 16) :
    (fieldsOf (formatXYN a x y n)).x = x := by
  have h : (formatXYN a x y n).extractLsb' 8 4 = nibble x := by
    unfold formatXYN fieldAt
    ext i hi
    interval_cases i <;> simp
  simp only [fieldsOf, h, toFin_nibble]

theorem fieldsOf_formatXYN_y (a : BitVec 4) (x y n : Fin 16) :
    (fieldsOf (formatXYN a x y n)).y = y := by
  have h : (formatXYN a x y n).extractLsb' 4 4 = nibble y := by
    unfold formatXYN fieldAt
    ext i hi
    interval_cases i <;> simp
  simp only [fieldsOf, h, toFin_nibble]

theorem fieldsOf_formatXYN_n (a : BitVec 4) (x y n : Fin 16) :
    (fieldsOf (formatXYN a x y n)).n = n := by
  have h : (formatXYN a x y n).extractLsb' 0 4 = nibble n := by
    unfold formatXYN fieldAt
    ext i hi
    interval_cases i <;> simp
  simp only [fieldsOf, h, toFin_nibble]

/-- The number of the word of two bytes, `mem[A] * 256 + mem[A+1]` (20_memory.md R43). -/
theorem toNat_wordOfBytes (hi lo : Byte) : (wordOfBytes hi lo).toNat = hi.toNat * 256 + lo.toNat := by
  have hor : fieldAt hi 8 ||| fieldAt lo 0 = fieldAt hi 8 + fieldAt lo 0 := by
    rw [BitVec.add_eq_or_of_and_eq_zero]
    unfold fieldAt
    ext i h
    interval_cases i <;> simp
  have h₁ := hi.isLt
  have h₂ := lo.isLt
  rw [wordOfBytes, hor]
  simp only [fieldAt, BitVec.toNat_add, BitVec.toNat_shiftLeft, BitVec.toNat_setWidth, Nat.shiftLeft_eq]
  omega

end Sys2Proof
end

