-- ==== Sys2Proof/Laws/Memory.lean ====
section
/-! SUPPORT. The laws of memory: a read after a write, and that every memory operation keeps the
canonical form. -/

namespace Sys2Proof.Machine

/-- A write leaves every other address alone, whatever the list. -/
theorem Memory.read_put_ne (base : Fin 433) (d b : Byte) {a c : Nat} (h : c ≠ a) (m : Memory) :
    Memory.read base (Memory.put d a b m) c = Memory.read base m c := by
  induction m with
  | nil => by_cases hb : b = d <;> simp [Memory.put, Memory.read, hb, h]
  | cons cell rest ih =>
    obtain ⟨a', b'⟩ := cell
    simp only [Memory.put]
    split_ifs with h₁ h₂ h₃ h₄
    · rfl
    · simp [Memory.read, h]
    · subst h₃; simp [Memory.read, h]
    · subst h₃; simp [Memory.read, h]
    · simp [Memory.read, ih]

/-- A canonical list starts at or above its bound. -/
theorem Memory.wfFrom_cons {base : Fin 433} {lo a : Nat} {b : Byte} {rest : Memory} :
    Memory.wfFrom base lo ((a, b) :: rest) = true ↔
      lo ≤ a ∧ a < memSize ∧ b ≠ Memory.unlisted base a ∧ Memory.wfFrom base (a + 1) rest = true := by
  simp [Memory.wfFrom, and_assoc]

/-- Raising nothing: a canonical list from `lo` is canonical from any smaller bound. -/
theorem Memory.wfFrom_mono {base : Fin 433} {lo lo' : Nat} (h : lo' ≤ lo) {m : Memory}
    (hm : Memory.wfFrom base lo m = true) : Memory.wfFrom base lo' m = true := by
  cases m with
  | nil => rfl
  | cons cell rest =>
    obtain ⟨a, b⟩ := cell
    rw [Memory.wfFrom_cons] at hm ⊢
    exact ⟨le_trans h hm.1, hm.2⟩

/-- An address below the first listed one reads as unlisted. -/
theorem Memory.read_below {base : Fin 433} {lo c : Nat} (h : c < lo) {m : Memory}
    (hm : Memory.wfFrom base lo m = true) : Memory.read base m c = Memory.unlisted base c := by
  induction m generalizing lo with
  | nil => rfl
  | cons cell rest ih =>
    obtain ⟨a, b⟩ := cell
    rw [Memory.wfFrom_cons] at hm
    have hca : c ≠ a := by omega
    simp only [Memory.read, if_neg hca]
    exact ih (by omega) hm.2.2.2

/-- A read after a write to the same address gives the byte written. -/
theorem Memory.read_put_self {base : Fin 433} {lo : Nat} (a : Nat) (b : Byte) {m : Memory}
    (hm : Memory.wfFrom base lo m = true) :
    Memory.read base (Memory.put (Memory.unlisted base a) a b m) a = b := by
  induction m generalizing lo with
  | nil => by_cases hb : b = Memory.unlisted base a <;> simp [Memory.put, Memory.read, hb]
  | cons cell rest ih =>
    obtain ⟨a', b'⟩ := cell
    have hm' := Memory.wfFrom_cons.1 hm
    simp only [Memory.put]
    split_ifs with h₁ h₂ h₃ h₄
    · have hne : a ≠ a' := by omega
      simp only [Memory.read, if_neg hne, h₂]
      exact Memory.read_below (by omega) hm'.2.2.2
    · simp [Memory.read]
    · subst h₃
      rw [h₄]
      exact Memory.read_below (by omega) hm'.2.2.2
    · simp [Memory.read]
    · simp only [Memory.read, if_neg h₃]
      exact ih hm'.2.2.2

/-- Putting a byte keeps the canonical form. -/
theorem Memory.wfFrom_put {base : Fin 433} {lo a : Nat} (b : Byte) (hlo : lo ≤ a) (ha : a < memSize)
    {m : Memory} (hm : Memory.wfFrom base lo m = true) :
    Memory.wfFrom base lo (Memory.put (Memory.unlisted base a) a b m) = true := by
  induction m generalizing lo with
  | nil =>
    by_cases hb : b = Memory.unlisted base a
    · simp [Memory.put, hb, Memory.wfFrom]
    · simp [Memory.put, hb, Memory.wfFrom, hlo, ha]
  | cons cell rest ih =>
    obtain ⟨a', b'⟩ := cell
    have hm' := Memory.wfFrom_cons.1 hm
    simp only [Memory.put]
    split_ifs with h₁ h₂ h₃ h₄
    · exact hm
    · exact Memory.wfFrom_cons.2 ⟨hlo, ha, h₂, Memory.wfFrom_cons.2 ⟨by omega, hm'.2⟩⟩
    · exact Memory.wfFrom_mono (by omega) hm'.2.2.2
    · subst h₃
      exact Memory.wfFrom_cons.2 ⟨hlo, ha, h₄, hm'.2.2.2⟩
    · exact Memory.wfFrom_cons.2 ⟨hm'.1, hm'.2.1, hm'.2.2.1, ih (by omega) hm'.2.2.2⟩

/-- A write inside the store keeps the canonical form. -/
theorem Memory.wf_write {base : Fin 433} {m : Memory} {a : Nat} (b : Byte) (ha : a < memSize)
    (hm : Memory.wf base m = true) : Memory.wf base (Memory.write base m a b) = true :=
  Memory.wfFrom_put b (Nat.zero_le a) ha hm

/-- Writing consecutive bytes inside the store keeps the canonical form. -/
theorem Memory.wf_writeAll {base : Fin 433} {a : Nat} {bs : List Byte} (ha : a + bs.length ≤ memSize)
    {m : Memory} (hm : Memory.wf base m = true) : Memory.wf base (Memory.writeAll base m a bs) = true := by
  induction bs generalizing a m with
  | nil => exact hm
  | cons b bs ih =>
    simp only [List.length_cons] at ha
    exact ih (by omega) (Memory.wf_write b (by omega) hm)

/-- Reading what one write left. -/
theorem Memory.read_write {base : Fin 433} {m : Memory} (a : Nat) (b : Byte) (c : Nat)
    (hm : Memory.wf base m = true) :
    Memory.read base (Memory.write base m a b) c = if c = a then b else Memory.read base m c := by
  split_ifs with h
  · subst h; exact Memory.read_put_self c b hm
  · exact Memory.read_put_ne base _ b h m

/-- Consecutive writes leave every address outside them alone, whatever the list. -/
theorem Memory.read_writeAll_ne {base : Fin 433} {a c : Nat} {bs : List Byte}
    (h : c < a ∨ a + bs.length ≤ c) (m : Memory) :
    Memory.read base (Memory.writeAll base m a bs) c = Memory.read base m c := by
  induction bs generalizing a m with
  | nil => rfl
  | cons b bs ih =>
    simp only [List.length_cons] at h
    simp only [Memory.writeAll]
    rw [ih (by omega), Memory.write, Memory.read_put_ne base _ b (by omega)]

/-- The reset memory, which lists nothing, is canonical. -/
theorem Memory.wf_nil (base : Fin 433) : Memory.wf base [] = true := rfl

end Sys2Proof.Machine
end

