-- ==== Sys2Proof/Laws/State.lean ====
section
/-! SUPPORT. One lemma per field per update of `State`, so that no proof unfolds a record update, and
the reading of a register after a write. -/

namespace Sys2Proof.Machine

/-! ## setV -/

@[simp] theorem State.setV_v (s : State) (x : Reg) (b : Byte) :
    (s.setV x b).v = s.v.set x.val b := rfl
@[simp] theorem State.setV_I (s : State) (x : Reg) (b : Byte) :
    (s.setV x b).I = s.I := rfl
@[simp] theorem State.setV_pc (s : State) (x : Reg) (b : Byte) :
    (s.setV x b).pc = s.pc := rfl
@[simp] theorem State.setV_sp (s : State) (x : Reg) (b : Byte) :
    (s.setV x b).sp = s.sp := rfl
@[simp] theorem State.setV_stack (s : State) (x : Reg) (b : Byte) :
    (s.setV x b).stack = s.stack := rfl
@[simp] theorem State.setV_dt (s : State) (x : Reg) (b : Byte) :
    (s.setV x b).dt = s.dt := rfl
@[simp] theorem State.setV_st (s : State) (x : Reg) (b : Byte) :
    (s.setV x b).st = s.st := rfl
@[simp] theorem State.setV_mem (s : State) (x : Reg) (b : Byte) :
    (s.setV x b).mem = s.mem := rfl
@[simp] theorem State.setV_disp (s : State) (x : Reg) (b : Byte) :
    (s.setV x b).disp = s.disp := rfl
@[simp] theorem State.setV_key (s : State) (x : Reg) (b : Byte) :
    (s.setV x b).key = s.key := rfl
@[simp] theorem State.setV_run (s : State) (x : Reg) (b : Byte) :
    (s.setV x b).run = s.run := rfl
@[simp] theorem State.setV_cyc (s : State) (x : Reg) (b : Byte) :
    (s.setV x b).cyc = s.cyc := rfl
@[simp] theorem State.setV_cfg (s : State) (x : Reg) (b : Byte) :
    (s.setV x b).cfg = s.cfg := rfl
@[simp] theorem State.setV_draws (s : State) (x : Reg) (b : Byte) :
    (s.setV x b).draws = s.draws := rfl

/-! ## setI -/

@[simp] theorem State.setI_v (s : State) (w : Word) :
    (s.setI w).v = s.v := rfl
@[simp] theorem State.setI_I (s : State) (w : Word) :
    (s.setI w).I = w := rfl
@[simp] theorem State.setI_pc (s : State) (w : Word) :
    (s.setI w).pc = s.pc := rfl
@[simp] theorem State.setI_sp (s : State) (w : Word) :
    (s.setI w).sp = s.sp := rfl
@[simp] theorem State.setI_stack (s : State) (w : Word) :
    (s.setI w).stack = s.stack := rfl
@[simp] theorem State.setI_dt (s : State) (w : Word) :
    (s.setI w).dt = s.dt := rfl
@[simp] theorem State.setI_st (s : State) (w : Word) :
    (s.setI w).st = s.st := rfl
@[simp] theorem State.setI_mem (s : State) (w : Word) :
    (s.setI w).mem = s.mem := rfl
@[simp] theorem State.setI_disp (s : State) (w : Word) :
    (s.setI w).disp = s.disp := rfl
@[simp] theorem State.setI_key (s : State) (w : Word) :
    (s.setI w).key = s.key := rfl
@[simp] theorem State.setI_run (s : State) (w : Word) :
    (s.setI w).run = s.run := rfl
@[simp] theorem State.setI_cyc (s : State) (w : Word) :
    (s.setI w).cyc = s.cyc := rfl
@[simp] theorem State.setI_cfg (s : State) (w : Word) :
    (s.setI w).cfg = s.cfg := rfl
@[simp] theorem State.setI_draws (s : State) (w : Word) :
    (s.setI w).draws = s.draws := rfl

/-! ## setPC -/

@[simp] theorem State.setPC_v (s : State) (w : Word) :
    (s.setPC w).v = s.v := rfl
@[simp] theorem State.setPC_I (s : State) (w : Word) :
    (s.setPC w).I = s.I := rfl
@[simp] theorem State.setPC_pc (s : State) (w : Word) :
    (s.setPC w).pc = w := rfl
@[simp] theorem State.setPC_sp (s : State) (w : Word) :
    (s.setPC w).sp = s.sp := rfl
@[simp] theorem State.setPC_stack (s : State) (w : Word) :
    (s.setPC w).stack = s.stack := rfl
@[simp] theorem State.setPC_dt (s : State) (w : Word) :
    (s.setPC w).dt = s.dt := rfl
@[simp] theorem State.setPC_st (s : State) (w : Word) :
    (s.setPC w).st = s.st := rfl
@[simp] theorem State.setPC_mem (s : State) (w : Word) :
    (s.setPC w).mem = s.mem := rfl
@[simp] theorem State.setPC_disp (s : State) (w : Word) :
    (s.setPC w).disp = s.disp := rfl
@[simp] theorem State.setPC_key (s : State) (w : Word) :
    (s.setPC w).key = s.key := rfl
@[simp] theorem State.setPC_run (s : State) (w : Word) :
    (s.setPC w).run = s.run := rfl
@[simp] theorem State.setPC_cyc (s : State) (w : Word) :
    (s.setPC w).cyc = s.cyc := rfl
@[simp] theorem State.setPC_cfg (s : State) (w : Word) :
    (s.setPC w).cfg = s.cfg := rfl
@[simp] theorem State.setPC_draws (s : State) (w : Word) :
    (s.setPC w).draws = s.draws := rfl

/-! ## setDT -/

@[simp] theorem State.setDT_v (s : State) (b : Byte) :
    (s.setDT b).v = s.v := rfl
@[simp] theorem State.setDT_I (s : State) (b : Byte) :
    (s.setDT b).I = s.I := rfl
@[simp] theorem State.setDT_pc (s : State) (b : Byte) :
    (s.setDT b).pc = s.pc := rfl
@[simp] theorem State.setDT_sp (s : State) (b : Byte) :
    (s.setDT b).sp = s.sp := rfl
@[simp] theorem State.setDT_stack (s : State) (b : Byte) :
    (s.setDT b).stack = s.stack := rfl
@[simp] theorem State.setDT_dt (s : State) (b : Byte) :
    (s.setDT b).dt = b := rfl
@[simp] theorem State.setDT_st (s : State) (b : Byte) :
    (s.setDT b).st = s.st := rfl
@[simp] theorem State.setDT_mem (s : State) (b : Byte) :
    (s.setDT b).mem = s.mem := rfl
@[simp] theorem State.setDT_disp (s : State) (b : Byte) :
    (s.setDT b).disp = s.disp := rfl
@[simp] theorem State.setDT_key (s : State) (b : Byte) :
    (s.setDT b).key = s.key := rfl
@[simp] theorem State.setDT_run (s : State) (b : Byte) :
    (s.setDT b).run = s.run := rfl
@[simp] theorem State.setDT_cyc (s : State) (b : Byte) :
    (s.setDT b).cyc = s.cyc := rfl
@[simp] theorem State.setDT_cfg (s : State) (b : Byte) :
    (s.setDT b).cfg = s.cfg := rfl
@[simp] theorem State.setDT_draws (s : State) (b : Byte) :
    (s.setDT b).draws = s.draws := rfl

/-! ## setST -/

@[simp] theorem State.setST_v (s : State) (b : Byte) :
    (s.setST b).v = s.v := rfl
@[simp] theorem State.setST_I (s : State) (b : Byte) :
    (s.setST b).I = s.I := rfl
@[simp] theorem State.setST_pc (s : State) (b : Byte) :
    (s.setST b).pc = s.pc := rfl
@[simp] theorem State.setST_sp (s : State) (b : Byte) :
    (s.setST b).sp = s.sp := rfl
@[simp] theorem State.setST_stack (s : State) (b : Byte) :
    (s.setST b).stack = s.stack := rfl
@[simp] theorem State.setST_dt (s : State) (b : Byte) :
    (s.setST b).dt = s.dt := rfl
@[simp] theorem State.setST_st (s : State) (b : Byte) :
    (s.setST b).st = b := rfl
@[simp] theorem State.setST_mem (s : State) (b : Byte) :
    (s.setST b).mem = s.mem := rfl
@[simp] theorem State.setST_disp (s : State) (b : Byte) :
    (s.setST b).disp = s.disp := rfl
@[simp] theorem State.setST_key (s : State) (b : Byte) :
    (s.setST b).key = s.key := rfl
@[simp] theorem State.setST_run (s : State) (b : Byte) :
    (s.setST b).run = s.run := rfl
@[simp] theorem State.setST_cyc (s : State) (b : Byte) :
    (s.setST b).cyc = s.cyc := rfl
@[simp] theorem State.setST_cfg (s : State) (b : Byte) :
    (s.setST b).cfg = s.cfg := rfl
@[simp] theorem State.setST_draws (s : State) (b : Byte) :
    (s.setST b).draws = s.draws := rfl

/-! ## setRun -/

@[simp] theorem State.setRun_v (s : State) (r : RunState) :
    (s.setRun r).v = s.v := rfl
@[simp] theorem State.setRun_I (s : State) (r : RunState) :
    (s.setRun r).I = s.I := rfl
@[simp] theorem State.setRun_pc (s : State) (r : RunState) :
    (s.setRun r).pc = s.pc := rfl
@[simp] theorem State.setRun_sp (s : State) (r : RunState) :
    (s.setRun r).sp = s.sp := rfl
@[simp] theorem State.setRun_stack (s : State) (r : RunState) :
    (s.setRun r).stack = s.stack := rfl
@[simp] theorem State.setRun_dt (s : State) (r : RunState) :
    (s.setRun r).dt = s.dt := rfl
@[simp] theorem State.setRun_st (s : State) (r : RunState) :
    (s.setRun r).st = s.st := rfl
@[simp] theorem State.setRun_mem (s : State) (r : RunState) :
    (s.setRun r).mem = s.mem := rfl
@[simp] theorem State.setRun_disp (s : State) (r : RunState) :
    (s.setRun r).disp = s.disp := rfl
@[simp] theorem State.setRun_key (s : State) (r : RunState) :
    (s.setRun r).key = s.key := rfl
@[simp] theorem State.setRun_run (s : State) (r : RunState) :
    (s.setRun r).run = r := rfl
@[simp] theorem State.setRun_cyc (s : State) (r : RunState) :
    (s.setRun r).cyc = s.cyc := rfl
@[simp] theorem State.setRun_cfg (s : State) (r : RunState) :
    (s.setRun r).cfg = s.cfg := rfl
@[simp] theorem State.setRun_draws (s : State) (r : RunState) :
    (s.setRun r).draws = s.draws := rfl

/-! ## setDisp -/

@[simp] theorem State.setDisp_v (s : State) (d : Display) :
    (s.setDisp d).v = s.v := rfl
@[simp] theorem State.setDisp_I (s : State) (d : Display) :
    (s.setDisp d).I = s.I := rfl
@[simp] theorem State.setDisp_pc (s : State) (d : Display) :
    (s.setDisp d).pc = s.pc := rfl
@[simp] theorem State.setDisp_sp (s : State) (d : Display) :
    (s.setDisp d).sp = s.sp := rfl
@[simp] theorem State.setDisp_stack (s : State) (d : Display) :
    (s.setDisp d).stack = s.stack := rfl
@[simp] theorem State.setDisp_dt (s : State) (d : Display) :
    (s.setDisp d).dt = s.dt := rfl
@[simp] theorem State.setDisp_st (s : State) (d : Display) :
    (s.setDisp d).st = s.st := rfl
@[simp] theorem State.setDisp_mem (s : State) (d : Display) :
    (s.setDisp d).mem = s.mem := rfl
@[simp] theorem State.setDisp_disp (s : State) (d : Display) :
    (s.setDisp d).disp = d := rfl
@[simp] theorem State.setDisp_key (s : State) (d : Display) :
    (s.setDisp d).key = s.key := rfl
@[simp] theorem State.setDisp_run (s : State) (d : Display) :
    (s.setDisp d).run = s.run := rfl
@[simp] theorem State.setDisp_cyc (s : State) (d : Display) :
    (s.setDisp d).cyc = s.cyc := rfl
@[simp] theorem State.setDisp_cfg (s : State) (d : Display) :
    (s.setDisp d).cfg = s.cfg := rfl
@[simp] theorem State.setDisp_draws (s : State) (d : Display) :
    (s.setDisp d).draws = s.draws := rfl

/-! ## setMem -/

@[simp] theorem State.setMem_v (s : State) (m : Memory) :
    (s.setMem m).v = s.v := rfl
@[simp] theorem State.setMem_I (s : State) (m : Memory) :
    (s.setMem m).I = s.I := rfl
@[simp] theorem State.setMem_pc (s : State) (m : Memory) :
    (s.setMem m).pc = s.pc := rfl
@[simp] theorem State.setMem_sp (s : State) (m : Memory) :
    (s.setMem m).sp = s.sp := rfl
@[simp] theorem State.setMem_stack (s : State) (m : Memory) :
    (s.setMem m).stack = s.stack := rfl
@[simp] theorem State.setMem_dt (s : State) (m : Memory) :
    (s.setMem m).dt = s.dt := rfl
@[simp] theorem State.setMem_st (s : State) (m : Memory) :
    (s.setMem m).st = s.st := rfl
@[simp] theorem State.setMem_mem (s : State) (m : Memory) :
    (s.setMem m).mem = m := rfl
@[simp] theorem State.setMem_disp (s : State) (m : Memory) :
    (s.setMem m).disp = s.disp := rfl
@[simp] theorem State.setMem_key (s : State) (m : Memory) :
    (s.setMem m).key = s.key := rfl
@[simp] theorem State.setMem_run (s : State) (m : Memory) :
    (s.setMem m).run = s.run := rfl
@[simp] theorem State.setMem_cyc (s : State) (m : Memory) :
    (s.setMem m).cyc = s.cyc := rfl
@[simp] theorem State.setMem_cfg (s : State) (m : Memory) :
    (s.setMem m).cfg = s.cfg := rfl
@[simp] theorem State.setMem_draws (s : State) (m : Memory) :
    (s.setMem m).draws = s.draws := rfl

/-! ## setStack -/

@[simp] theorem State.setStack_v (s : State) (n : Fin 17) (k : Vector Word 16) :
    (s.setStack n k).v = s.v := rfl
@[simp] theorem State.setStack_I (s : State) (n : Fin 17) (k : Vector Word 16) :
    (s.setStack n k).I = s.I := rfl
@[simp] theorem State.setStack_pc (s : State) (n : Fin 17) (k : Vector Word 16) :
    (s.setStack n k).pc = s.pc := rfl
@[simp] theorem State.setStack_sp (s : State) (n : Fin 17) (k : Vector Word 16) :
    (s.setStack n k).sp = n := rfl
@[simp] theorem State.setStack_stack (s : State) (n : Fin 17) (k : Vector Word 16) :
    (s.setStack n k).stack = k := rfl
@[simp] theorem State.setStack_dt (s : State) (n : Fin 17) (k : Vector Word 16) :
    (s.setStack n k).dt = s.dt := rfl
@[simp] theorem State.setStack_st (s : State) (n : Fin 17) (k : Vector Word 16) :
    (s.setStack n k).st = s.st := rfl
@[simp] theorem State.setStack_mem (s : State) (n : Fin 17) (k : Vector Word 16) :
    (s.setStack n k).mem = s.mem := rfl
@[simp] theorem State.setStack_disp (s : State) (n : Fin 17) (k : Vector Word 16) :
    (s.setStack n k).disp = s.disp := rfl
@[simp] theorem State.setStack_key (s : State) (n : Fin 17) (k : Vector Word 16) :
    (s.setStack n k).key = s.key := rfl
@[simp] theorem State.setStack_run (s : State) (n : Fin 17) (k : Vector Word 16) :
    (s.setStack n k).run = s.run := rfl
@[simp] theorem State.setStack_cyc (s : State) (n : Fin 17) (k : Vector Word 16) :
    (s.setStack n k).cyc = s.cyc := rfl
@[simp] theorem State.setStack_cfg (s : State) (n : Fin 17) (k : Vector Word 16) :
    (s.setStack n k).cfg = s.cfg := rfl
@[simp] theorem State.setStack_draws (s : State) (n : Fin 17) (k : Vector Word 16) :
    (s.setStack n k).draws = s.draws := rfl

/-! ## countDraw -/

@[simp] theorem State.countDraw_v (s : State) :
    (s.countDraw).v = s.v := rfl
@[simp] theorem State.countDraw_I (s : State) :
    (s.countDraw).I = s.I := rfl
@[simp] theorem State.countDraw_pc (s : State) :
    (s.countDraw).pc = s.pc := rfl
@[simp] theorem State.countDraw_sp (s : State) :
    (s.countDraw).sp = s.sp := rfl
@[simp] theorem State.countDraw_stack (s : State) :
    (s.countDraw).stack = s.stack := rfl
@[simp] theorem State.countDraw_dt (s : State) :
    (s.countDraw).dt = s.dt := rfl
@[simp] theorem State.countDraw_st (s : State) :
    (s.countDraw).st = s.st := rfl
@[simp] theorem State.countDraw_mem (s : State) :
    (s.countDraw).mem = s.mem := rfl
@[simp] theorem State.countDraw_disp (s : State) :
    (s.countDraw).disp = s.disp := rfl
@[simp] theorem State.countDraw_key (s : State) :
    (s.countDraw).key = s.key := rfl
@[simp] theorem State.countDraw_run (s : State) :
    (s.countDraw).run = s.run := rfl
@[simp] theorem State.countDraw_cyc (s : State) :
    (s.countDraw).cyc = s.cyc := rfl
@[simp] theorem State.countDraw_cfg (s : State) :
    (s.countDraw).cfg = s.cfg := rfl
@[simp] theorem State.countDraw_draws (s : State) :
    (s.countDraw).draws = s.draws + 1 := rfl

/-! ## setKey -/

@[simp] theorem State.setKey_v (s : State) (k : Fin 16) (p : Bool) :
    (s.setKey k p).v = s.v := rfl
@[simp] theorem State.setKey_I (s : State) (k : Fin 16) (p : Bool) :
    (s.setKey k p).I = s.I := rfl
@[simp] theorem State.setKey_pc (s : State) (k : Fin 16) (p : Bool) :
    (s.setKey k p).pc = s.pc := rfl
@[simp] theorem State.setKey_sp (s : State) (k : Fin 16) (p : Bool) :
    (s.setKey k p).sp = s.sp := rfl
@[simp] theorem State.setKey_stack (s : State) (k : Fin 16) (p : Bool) :
    (s.setKey k p).stack = s.stack := rfl
@[simp] theorem State.setKey_dt (s : State) (k : Fin 16) (p : Bool) :
    (s.setKey k p).dt = s.dt := rfl
@[simp] theorem State.setKey_st (s : State) (k : Fin 16) (p : Bool) :
    (s.setKey k p).st = s.st := rfl
@[simp] theorem State.setKey_mem (s : State) (k : Fin 16) (p : Bool) :
    (s.setKey k p).mem = s.mem := rfl
@[simp] theorem State.setKey_disp (s : State) (k : Fin 16) (p : Bool) :
    (s.setKey k p).disp = s.disp := rfl
@[simp] theorem State.setKey_key (s : State) (k : Fin 16) (p : Bool) :
    (s.setKey k p).key = s.key.set k.val p := rfl
@[simp] theorem State.setKey_run (s : State) (k : Fin 16) (p : Bool) :
    (s.setKey k p).run = s.run := rfl
@[simp] theorem State.setKey_cyc (s : State) (k : Fin 16) (p : Bool) :
    (s.setKey k p).cyc = s.cyc := rfl
@[simp] theorem State.setKey_cfg (s : State) (k : Fin 16) (p : Bool) :
    (s.setKey k p).cfg = s.cfg := rfl
@[simp] theorem State.setKey_draws (s : State) (k : Fin 16) (p : Bool) :
    (s.setKey k p).draws = s.draws := rfl

/-! ## Registers -/

/-- A register reads what was written to it, every other register as before. -/
theorem State.getV_setV (s : State) (x y : Reg) (b : Byte) :
    (s.setV x b).getV y = if x = y then b else s.getV y := by
  simp only [State.getV, State.setV_v, Vector.getElem_set, Fin.ext_iff]

@[simp] theorem State.getV_setV_self (s : State) (x : Reg) (b : Byte) :
    (s.setV x b).getV x = b := by
  simp [State.getV_setV]

theorem State.getV_setV_ne (s : State) {x y : Reg} (b : Byte) (h : x ≠ y) :
    (s.setV x b).getV y = s.getV y := by
  simp [State.getV_setV, h]

@[simp] theorem State.getV_setI (s : State) (w : Word) (x : Reg) :
    (s.setI w).getV x = s.getV x := rfl
@[simp] theorem State.getV_setPC (s : State) (w : Word) (x : Reg) :
    (s.setPC w).getV x = s.getV x := rfl
@[simp] theorem State.getV_setDT (s : State) (b : Byte) (x : Reg) :
    (s.setDT b).getV x = s.getV x := rfl
@[simp] theorem State.getV_setST (s : State) (b : Byte) (x : Reg) :
    (s.setST b).getV x = s.getV x := rfl
@[simp] theorem State.getV_setRun (s : State) (r : RunState) (x : Reg) :
    (s.setRun r).getV x = s.getV x := rfl
@[simp] theorem State.getV_setDisp (s : State) (d : Display) (x : Reg) :
    (s.setDisp d).getV x = s.getV x := rfl
@[simp] theorem State.getV_setMem (s : State) (m : Memory) (x : Reg) :
    (s.setMem m).getV x = s.getV x := rfl
@[simp] theorem State.getV_setStack (s : State) (n : Fin 17) (k : Vector Word 16) (x : Reg) :
    (s.setStack n k).getV x = s.getV x := rfl
@[simp] theorem State.getV_countDraw (s : State) (x : Reg) :
    (s.countDraw).getV x = s.getV x := rfl
@[simp] theorem State.getV_setKey (s : State) (k : Fin 16) (p : Bool) (x : Reg) :
    (s.setKey k p).getV x = s.getV x := rfl

/-! ## Memory reads -/

@[simp] theorem State.peek_setV (s : State) (x : Reg) (b : Byte) (a : Nat) :
    (s.setV x b).peek a = s.peek a := rfl
@[simp] theorem State.peek_setI (s : State) (w : Word) (a : Nat) :
    (s.setI w).peek a = s.peek a := rfl
@[simp] theorem State.peek_setPC (s : State) (w : Word) (a : Nat) :
    (s.setPC w).peek a = s.peek a := rfl
@[simp] theorem State.peek_setDT (s : State) (b : Byte) (a : Nat) :
    (s.setDT b).peek a = s.peek a := rfl
@[simp] theorem State.peek_setST (s : State) (b : Byte) (a : Nat) :
    (s.setST b).peek a = s.peek a := rfl
@[simp] theorem State.peek_setRun (s : State) (r : RunState) (a : Nat) :
    (s.setRun r).peek a = s.peek a := rfl
@[simp] theorem State.peek_setDisp (s : State) (d : Display) (a : Nat) :
    (s.setDisp d).peek a = s.peek a := rfl
@[simp] theorem State.peek_setStack (s : State) (n : Fin 17) (k : Vector Word 16) (a : Nat) :
    (s.setStack n k).peek a = s.peek a := rfl
@[simp] theorem State.peek_countDraw (s : State) (a : Nat) :
    (s.countDraw).peek a = s.peek a := rfl
@[simp] theorem State.peek_setKey (s : State) (k : Fin 16) (p : Bool) (a : Nat) :
    (s.setKey k p).peek a = s.peek a := rfl

end Sys2Proof.Machine
end

