-- ==== Sys2Proof/Laws/Ops.lean ====
section
/-! SUPPORT. For each shared operation, once, everything it can do; proofs cite these and do not unfold
the operation. -/

namespace Sys2Proof.Machine

/-! ## Addresses -/

/-- A readable address resolves to itself mod 4096. -/
theorem resolveAddr_of_readable {s : State} {addr : Nat} (h : s.Readable addr) :
    resolveAddr s.cfg.addrPolicy addr = .ok (addr % 4096) := by
  unfold resolveAddr memSize
  split_ifs with hlt
  · rw [Nat.mod_eq_of_lt hlt]
  · rcases h with h | h
    · exact absurd h hlt
    · rw [h]

/-- A not readable address is 4096 or more under ADDR_POLICY = fault, and is reported. -/
theorem resolveAddr_of_not_readable {s : State} {addr : Nat} (h : ¬ s.Readable addr) :
    4096 ≤ addr ∧ s.cfg.addrPolicy = .fault ∧
      resolveAddr s.cfg.addrPolicy addr = .error ⟨.memoryOutOfRange, some addr⟩ := by
  simp only [State.Readable, not_or] at h
  have hp : s.cfg.addrPolicy = .fault := by
    cases hq : s.cfg.addrPolicy
    · rfl
    · exact absurd hq h.2
  refine ⟨by omega, hp, ?_⟩
  unfold resolveAddr memSize
  rw [if_neg h.1, hp]

/-! ## One byte -/

theorem memRead_of_readable {s : State} {addr : Nat} (h : s.Readable addr) :
    s.memRead addr = .ok (s.peek (addr % 4096)) := by
  simp only [State.memRead, resolveAddr_of_readable h]

theorem memRead_of_not_readable {s : State} {addr : Nat} (h : ¬ s.Readable addr) :
    s.memRead addr = .error ⟨.memoryOutOfRange, some addr⟩ := by
  simp only [State.memRead, (resolveAddr_of_not_readable h).2.2]

theorem memWrite_of_writable {s : State} {addr : Nat} (b : Byte) (h : s.Writable addr) :
    s.memWrite addr b = .ok (s.poke (addr % 4096) b) := by
  have hlow : ¬ (addr % 4096 < origin ∧ s.cfg.lowWritePolicy = .fault) := by
    rintro ⟨h₁, h₂⟩
    rcases h.2 with h₃ | h₃
    · unfold origin at h₁; omega
    · rw [h₂] at h₃; cases h₃
  simp only [State.memWrite, resolveAddr_of_readable h.1, if_neg hlow]

/-- A write that is not allowed: out of range first, else in the reserved region. -/
theorem memWrite_of_not_writable {s : State} {addr : Nat} (b : Byte) (h : ¬ s.Writable addr) :
    (¬ s.Readable addr ∧ s.memWrite addr b = .error ⟨.memoryOutOfRange, some addr⟩) ∨
    (s.Readable addr ∧ s.memWrite addr b = .error ⟨.reservedWrite, some (addr % 4096)⟩) := by
  by_cases hr : s.Readable addr
  · refine Or.inr ⟨hr, ?_⟩
    have hw : ¬ (0x200 ≤ addr % 4096 ∨ s.cfg.lowWritePolicy = .allow) := fun hw => h ⟨hr, hw⟩
    rw [not_or] at hw
    have hp : s.cfg.lowWritePolicy = .fault := by
      cases hq : s.cfg.lowWritePolicy
      · rfl
      · exact absurd hq hw.2
    have hlow : addr % 4096 < origin ∧ s.cfg.lowWritePolicy = .fault :=
      ⟨by unfold origin; omega, hp⟩
    simp only [State.memWrite, resolveAddr_of_readable hr, if_pos hlow]
  · refine Or.inl ⟨hr, ?_⟩
    simp only [State.memWrite, (resolveAddr_of_not_readable hr).2.2]

/-! ## Blocks -/

/-- A block read whose addresses are all readable gives their bytes in order. -/
theorem readBlock_of_readable {s : State} {addr n : Nat} (h : ∀ j, j < n → s.Readable (addr + j)) :
    s.readBlock addr n = .ok ((List.range n).map fun j => s.peek ((addr + j) % 4096)) := by
  induction n generalizing addr with
  | zero => rfl
  | succ n ih =>
    have h0 : s.Readable addr := h 0 (Nat.succ_pos n)
    have ht : ∀ j, j < n → s.Readable (addr + 1 + j) := fun j hj => by
      have := h (j + 1) (by omega)
      rwa [show addr + (j + 1) = addr + 1 + j by omega] at this
    simp only [State.readBlock, memRead_of_readable h0, ih ht]
    rw [List.range_succ_eq_map, List.map_cons, List.map_map, Nat.add_zero]
    refine congrArg (fun l => Except.ok (s.peek (addr % 4096) :: l)) (List.map_congr_left fun j _ => ?_)
    simp only [Function.comp_apply, Nat.succ_eq_add_one, Nat.add_assoc, Nat.add_comm 1 j]

/-- A block read reports the first address that is not readable. -/
theorem readBlock_of_firstUnreadable {s : State} {addr n k : Nat} (h : s.FirstUnreadable addr n k) :
    s.readBlock addr n = .error ⟨.memoryOutOfRange, some (addr + k)⟩ := by
  induction n generalizing addr k with
  | zero => exact absurd h.1 (Nat.not_lt_zero k)
  | succ n ih =>
    obtain ⟨hk, hok, hbad⟩ := h
    cases k with
    | zero =>
      rw [Nat.add_zero] at hbad
      simp only [State.readBlock, memRead_of_not_readable hbad, Nat.add_zero]
    | succ k =>
      have h0 : s.Readable addr := hok 0 (Nat.succ_pos k)
      have ht : s.FirstUnreadable (addr + 1) n k :=
        ⟨by omega, fun j hj => by
          have := hok (j + 1) (by omega)
          rwa [show addr + (j + 1) = addr + 1 + j by omega] at this,
        by rwa [show addr + 1 + k = addr + (k + 1) by omega]⟩
      simp only [State.readBlock, memRead_of_readable h0, ih ht]
      rw [show addr + 1 + k = addr + (k + 1) by omega]

/-- Either every address of a block is readable, or there is a first that is not. -/
theorem readable_or_first (s : State) (addr n : Nat) :
    (∀ j, j < n → s.Readable (addr + j)) ∨ ∃ k, s.FirstUnreadable addr n k := by
  induction n with
  | zero => exact Or.inl fun j hj => absurd hj (Nat.not_lt_zero j)
  | succ n ih =>
    rcases ih with h | ⟨k, hk, hok, hbad⟩
    · by_cases hn : s.Readable (addr + n)
      · refine Or.inl fun j hj => ?_
        rcases Nat.lt_succ_iff_lt_or_eq.1 hj with hj | rfl
        exacts [h j hj, hn]
      · exact Or.inr ⟨n, Nat.lt_succ_self n, h, hn⟩
    · exact Or.inr ⟨k, by omega, hok, hbad⟩

/-- Either every address of a block is writable, or there is a first that is not. -/
theorem writable_or_first (s : State) (addr n : Nat) :
    (∀ j, j < n → s.Writable (addr + j)) ∨ ∃ k, s.FirstUnwritable addr n k := by
  induction n with
  | zero => exact Or.inl fun j hj => absurd hj (Nat.not_lt_zero j)
  | succ n ih =>
    rcases ih with h | ⟨k, hk, hok, hbad⟩
    · by_cases hn : s.Writable (addr + n)
      · refine Or.inl fun j hj => ?_
        rcases Nat.lt_succ_iff_lt_or_eq.1 hj with hj | rfl
        exacts [h j hj, hn]
      · exact Or.inr ⟨n, Nat.lt_succ_self n, h, hn⟩
    · exact Or.inr ⟨k, by omega, hok, hbad⟩

/-- Writing a byte changes memory only. -/
theorem poke_eq (s : State) (a : Nat) (b : Byte) : ∃ m, s.poke a b = s.setMem m := ⟨_, rfl⟩

/-- A byte write leaves every other address alone. -/
theorem peek_poke_ne (s : State) {a c : Nat} (b : Byte) (h : c ≠ a) : (s.poke a b).peek c = s.peek c :=
  Memory.read_put_ne _ _ b h s.mem

/-- A byte write to a canonical memory is read back. -/
theorem peek_poke_self {s : State} (a : Nat) (b : Byte) (hm : s.MemCanonical) :
    (s.poke a b).peek a = b :=
  Memory.read_put_self a b hm

/-- A byte write inside the store keeps memory canonical. -/
theorem poke_memCanonical {s : State} {a : Nat} (b : Byte) (ha : a < 4096) (hm : s.MemCanonical) :
    (s.poke a b).MemCanonical :=
  Memory.wf_write b ha hm

/-- A block write whose addresses are all writable: only memory changes, bytes outside the block read
as before, and memory stays canonical. -/
theorem writeBlock_of_writable {s : State} {addr : Nat} {bs : List Byte}
    (h : ∀ j, j < bs.length → s.Writable (addr + j)) :
    ∃ m, s.writeBlock addr bs = .ok (s.setMem m) ∧
      (∀ c, (∀ j, j < bs.length → c ≠ (addr + j) % 4096) → (s.setMem m).peek c = s.peek c) ∧
      (s.MemCanonical → (s.setMem m).MemCanonical) := by
  induction bs generalizing s addr with
  | nil => exact ⟨s.mem, rfl, fun _ _ => rfl, fun hm => hm⟩
  | cons b bs ih =>
    have h0 : s.Writable addr := h 0 (Nat.succ_pos _)
    have ht : ∀ j, j < bs.length → (s.poke (addr % 4096) b).Writable (addr + 1 + j) := fun j hj => by
      have := h (j + 1) (by simpa using hj)
      rwa [show addr + (j + 1) = addr + 1 + j by omega] at this
    obtain ⟨m, hw, hframe, hwf⟩ := ih ht
    refine ⟨m, ?_, ?_, ?_⟩
    · simp only [State.writeBlock, memWrite_of_writable b h0]
      exact hw
    · intro c hc
      have h1 : c ≠ addr % 4096 := hc 0 (Nat.succ_pos _)
      have h2 := hframe c fun j hj => by
        have := hc (j + 1) (by simpa using hj)
        rwa [show addr + (j + 1) = addr + 1 + j by omega] at this
      rw [← peek_poke_ne s b h1]
      exact h2
    · intro hm
      exact hwf (poke_memCanonical b (Nat.mod_lt _ (by omega)) hm)

/-- A block write to a canonical memory of at most 4096 bytes is read back byte by byte. -/
theorem peek_writeBlock {s t : State} {addr : Nat} {bs : List Byte} (hm : s.MemCanonical)
    (hlen : bs.length ≤ 4096) (hok : ∀ j, j < bs.length → s.Writable (addr + j))
    (h : s.writeBlock addr bs = .ok t) (j : Nat) (hj : j < bs.length) :
    t.peek ((addr + j) % 4096) = bs[j] := by
  induction bs generalizing s addr j with
  | nil => exact absurd hj (Nat.not_lt_zero j)
  | cons b bs ih =>
    simp only [List.length_cons] at hlen hj hok
    have h0 : s.Writable addr := hok 0 (Nat.succ_pos _)
    have ht : ∀ i, i < bs.length → (s.poke (addr % 4096) b).Writable (addr + 1 + i) := fun i hi => by
      have := hok (i + 1) (by omega)
      rwa [show addr + (i + 1) = addr + 1 + i by omega] at this
    have hm' := poke_memCanonical b (Nat.mod_lt addr (by omega : 4096 > 0)) hm
    simp only [State.writeBlock, memWrite_of_writable b h0] at h
    cases j with
    | zero =>
      obtain ⟨m, hw, hframe, -⟩ := writeBlock_of_writable ht
      rw [hw, Except.ok.injEq] at h
      subst h
      rw [hframe _ (fun i hi => by simp only [Nat.add_zero]; omega)]
      exact peek_poke_self _ b hm
    | succ j =>
      have := ih hm' (by omega) ht h j (by omega)
      rwa [show addr + 1 + j = addr + (j + 1) by omega] at this

/-- A block write reports the first address that is not writable. -/
theorem writeBlock_of_firstUnwritable {s : State} {addr k : Nat} {bs : List Byte}
    (h : s.FirstUnwritable addr bs.length k) :
    ∃ r, s.writeBlock addr bs = .error r ∧
      ((¬ s.Readable (addr + k) ∧ r = ⟨.memoryOutOfRange, some (addr + k)⟩) ∨
       (s.Readable (addr + k) ∧ r = ⟨.reservedWrite, some ((addr + k) % 4096)⟩)) := by
  induction bs generalizing s addr k with
  | nil => exact absurd h.1 (Nat.not_lt_zero k)
  | cons b bs ih =>
    obtain ⟨hk, hok, hbad⟩ := h
    simp only [List.length_cons] at hk
    cases k with
    | zero =>
      rw [Nat.add_zero] at hbad ⊢
      rcases memWrite_of_not_writable b hbad with ⟨hr, he⟩ | ⟨hr, he⟩
      · exact ⟨_, by simp only [State.writeBlock, he], Or.inl ⟨hr, rfl⟩⟩
      · exact ⟨_, by simp only [State.writeBlock, he], Or.inr ⟨hr, rfl⟩⟩
    | succ k =>
      have h0 : s.Writable addr := hok 0 (Nat.succ_pos k)
      have ht : (s.poke (addr % 4096) b).FirstUnwritable (addr + 1) bs.length k :=
        ⟨by omega, fun j hj => by
          have := hok (j + 1) (by omega)
          rwa [show addr + (j + 1) = addr + 1 + j by omega] at this,
        by rw [show addr + 1 + k = addr + (k + 1) by omega]; exact hbad⟩
      obtain ⟨r, hr, hcase⟩ := ih ht
      refine ⟨r, ?_, ?_⟩
      · simp only [State.writeBlock, memWrite_of_writable b h0]
        exact hr
      · rw [show addr + (k + 1) = addr + 1 + k by omega]
        exact hcase

/-- A block load writes registers only: V[k+j] for the bytes it has, the others as before. -/
theorem loadRegs_eq (s : State) (k : Nat) (bs : List Byte) :
    ∃ v, s.loadRegs k bs = { s with v := v } ∧
      ∀ x : Reg, ({ s with v := v } : State).getV x
        = if h : k ≤ x.val ∧ x.val - k < bs.length then bs[x.val - k]'h.2 else s.getV x := by
  induction bs generalizing s k with
  | nil => exact ⟨s.v, rfl, fun x => by simp [State.getV]⟩
  | cons b bs ih =>
    by_cases hk : k < 16
    · obtain ⟨v, hv, hx⟩ := ih (s.setV ⟨k, hk⟩ b) (k + 1)
      refine ⟨v, by simp only [State.loadRegs, dif_pos hk]; exact hv, fun x => ?_⟩
      have hx' := hx x
      rw [show ({ s.setV ⟨k, hk⟩ b with v := v } : State).getV x
        = ({ s with v := v } : State).getV x from rfl] at hx'
      rw [hx']
      by_cases h1 : k + 1 ≤ x.val ∧ x.val - (k + 1) < bs.length
      · have h2 : k ≤ x.val ∧ x.val - k < (b :: bs).length := by
          simp only [List.length_cons]; omega
        rw [dif_pos h1, dif_pos h2]
        have : x.val - k = (x.val - (k + 1)) + 1 := by omega
        simp only [this, List.getElem_cons_succ]
      · rw [dif_neg h1]
        by_cases hxk : x.val = k
        · have h2 : k ≤ x.val ∧ x.val - k < (b :: bs).length := by
            simp only [List.length_cons]; omega
          rw [dif_pos h2]
          have : (⟨k, hk⟩ : Reg) = x := Fin.ext hxk.symm
          rw [this, State.getV_setV_self]
          simp [hxk]
        · have h2 : ¬ (k ≤ x.val ∧ x.val - k < (b :: bs).length) := by
            simp only [List.length_cons]; omega
          rw [dif_neg h2, State.getV_setV_ne]
          intro he
          exact hxk (by rw [← he])
    · refine ⟨s.v, by simp only [State.loadRegs, dif_neg hk], fun x => ?_⟩
      have h2 : ¬ (k ≤ x.val ∧ x.val - k < (b :: bs).length) := by
        have := x.isLt; omega
      rw [dif_neg h2]

/-! ## Call stack -/

/-- A push with SP < 16 fills the next slot. -/
theorem push_of_lt {s : State} (w : Word) (h : s.sp.val < 16) :
    s.push w = some (s.setStack ⟨s.sp.val + 1, by omega⟩ (s.stack.set s.sp.val w)) := by
  simp only [State.push, dif_pos h]

theorem push_of_full {s : State} (w : Word) (h : s.sp.val = 16) : s.push w = none := by
  simp only [State.push, h, lt_self_iff_false, dite_false]

/-- A pop with SP > 0 gives the topmost entry and leaves it in its slot. -/
theorem pop_of_pos {s : State} (h : 0 < s.sp.val) :
    s.pop = some (s.setStack ⟨s.sp.val - 1, by omega⟩ s.stack, s.stack[s.sp.val - 1]'(by omega)) := by
  simp only [State.pop, dif_pos h]

theorem pop_of_empty {s : State} (h : s.sp.val = 0) : s.pop = none := by
  simp only [State.pop, h, lt_self_iff_false, dite_false]

/-! ## Fetch and faults -/

/-- The fetch of two readable bytes. -/
theorem fetch_of_readable {s : State} (h₀ : s.Readable s.pc.toNat) (h₁ : s.Readable (s.pc.toNat + 1)) :
    s.fetch = .ok (wordOfBytes (s.peek (s.pc.toNat % 4096)) (s.peek ((s.pc.toNat + 1) % 4096))) := by
  simp only [State.fetch, memRead_of_readable h₀, memRead_of_readable h₁]

/-- A fetch that answers a word read both bytes. -/
theorem readable_of_fetch {s : State} {w : Word} (h : s.fetch = .ok w) :
    s.Readable s.pc.toNat ∧ s.Readable (s.pc.toNat + 1) := by
  by_cases h₀ : s.Readable s.pc.toNat
  · refine ⟨h₀, ?_⟩
    by_contra h₁
    simp only [State.fetch, memRead_of_readable h₀, memRead_of_not_readable h₁] at h
    cases h
  · simp only [State.fetch, memRead_of_not_readable h₀] at h
    cases h

/-- Going back before the fetch's advance. -/
theorem retreat_advance (s : State) : s.advance.retreat = s := by
  simp only [State.advance, State.retreat, State.setPC, BitVec.add_sub_cancel]

/-- A fault of the execute phase leaves the state of the start of the step but for `run`. -/
theorem raiseIn_advance (s : State) (i : Instr) (r : Raise) :
    s.advance.raiseIn i r = s.faultedWith r.kind (some (encode i)) r.memAddr := by
  simp only [State.raiseIn, retreat_advance]
  rfl

/-- A fault of the fetch or of an unknown word leaves everything but `run`. -/
theorem raise_eq (s : State) (w : Option Word) (r : Raise) :
    s.raise w r = s.faultedWith r.kind w r.memAddr := rfl

/-! ## Skips and flags -/

@[simp] theorem skipIf_true (s : State) : s.skipIf true = s.setPC (s.pc + 2) := rfl

@[simp] theorem skipIf_false (s : State) : s.skipIf false = s := rfl

/-- The two writes of a flag-setting instruction: VF reads the flag, whatever x is. -/
theorem getV_setResultAndFlag (s : State) (x y : Reg) (r f : Byte) :
    (s.setResultAndFlag x r f).getV y = if y = vf then f else if y = x then r else s.getV y := by
  simp only [State.setResultAndFlag, State.getV_setV, eq_comm]

/-- `flagByte` is 1 exactly when its condition holds. -/
theorem flagByte_eq_one (c : Bool) : flagByte c = 1 ↔ c = true := by
  cases c <;> decide

/-- `flagByte` is 0 exactly when its condition fails. -/
theorem flagByte_eq_zero (c : Bool) : flagByte c = 0 ↔ c = false := by
  cases c <;> decide

/-! ## Display -/

/-- Toggling a pixel changes that pixel only. -/
theorem pixel_toggle (d : Display) (px px' : Fin 64) (py py' : Fin 32) :
    (d.toggle px py).pixel px' py'
      = if px' = px ∧ py' = py then !d.pixel px' py' else d.pixel px' py' := by
  simp only [Display.pixel, Display.toggle, Vector.getElem_set, Fin.ext_iff]
  by_cases h : px.val = px'.val
  · have hpx : px = px' := Fin.ext h
    subst hpx
    simp only [if_true, Vector.getElem_set, true_and]
    by_cases h' : py.val = py'.val
    · have hpy : py = py' := Fin.ext h'
      subst hpy
      simp
    · simp [h', Ne.symm h']
  · simp [h, Ne.symm h]

/-- Every pixel of the cleared display is off. -/
@[simp] theorem pixel_clear (px : Fin 64) (py : Fin 32) : Display.clear.pixel px py = false := by
  simp [Display.pixel, Display.clear]

/-! ## Reset contents -/

/-- The model's font is the table of 20_memory.md R42. -/
theorem fontBytes_eq_glyphsOfR42 : ∀ j : Fin 80, fontBytes[j.val]?.getD 0 = glyphsOfR42[j.val] := by
  decide

/-- A byte of the font region reads, unlisted, as its glyph byte. -/
theorem unlisted_glyph (base : Fin 433) (j : Fin 80) :
    Memory.unlisted base (base.val + j.val) = glyphsOfR42[j.val] := by
  have hlt : base.val + j.val < origin := by
    have hb := base.isLt
    have hj := j.isLt
    unfold origin
    omega
  rw [Memory.unlisted, if_pos hlt, if_pos (Nat.le_add_right _ _), Nat.add_sub_cancel_left]
  exact fontBytes_eq_glyphsOfR42 j

end Sys2Proof.Machine
end

