-- ==== Sys2Proof/Laws/Draw.lean ====
section
/-! SUPPORT. What the sprite loop of Dxyn does to the display, said once: no two pixels of one sprite
land on the same display pixel (46_draw.md R115), so every pixel is the XOR of its old value and of
whether a 1 bit lands on it. -/

namespace Sys2Proof.Machine

/-- One sprite bit and the pixel it lands on. -/
abbrev Dot := Bool × Fin 64 × Fin 32

/-- Place the sprite bits of a list one after the other. -/
def Blit.dots (z : Blit) (ds : List Dot) : Blit := ds.foldl (fun z e => z.dot e.1 e.2.1 e.2.2) z

/-- The bits of the sprite rows from row offset `r` on, in the order the loop places them. -/
def spriteDots (xs ys r : Nat) : List Byte → List Dot
  | [] => []
  | b :: bs =>
    ([0, 1, 2, 3, 4, 5, 6, 7].map fun c => (b.getLsbD (7 - c), column xs c, rowOf ys r))
      ++ spriteDots xs ys (r + 1) bs

/-- The sprite loop places the bits of the list. -/
theorem rows_eq_dots (bs : List Byte) (z : Blit) (xs ys r : Nat) :
    z.rows xs ys r bs = z.dots (spriteDots xs ys r bs) := by
  induction bs generalizing z r with
  | nil => rfl
  | cons b bs ih =>
    simp only [Blit.rows, ih, spriteDots, Blit.dots, List.foldl_append, List.foldl_map, Blit.row]

/-- One sprite bit flips its pixel exactly when it is 1. -/
theorem pixel_dot (z : Blit) (on : Bool) (a p : Fin 64) (b q : Fin 32) :
    (z.dot on a b).disp.pixel p q = (z.disp.pixel p q ^^ decide (on = true ∧ p = a ∧ q = b)) := by
  cases on
  · simp [Blit.dot]
  · simp only [Blit.dot, if_true, pixel_toggle]
    by_cases h : p = a ∧ q = b <;> simp [h]

/-- Bits on distinct pixels: each pixel flips exactly when a 1 bit lands on it, and there is a collision
exactly when a 1 bit lands on a pixel that was on. -/
theorem dots_spec {ds : List Dot} (z : Blit) (h : (ds.map (·.2)).Nodup) :
    (∀ p q, (z.dots ds).disp.pixel p q = (z.disp.pixel p q ^^ decide ((true, p, q) ∈ ds))) ∧
    ((z.dots ds).collision = true ↔
      z.collision = true ∨ ∃ p q, (true, p, q) ∈ ds ∧ z.disp.pixel p q = true) := by
  induction ds generalizing z with
  | nil => simp [Blit.dots]
  | cons e ds ih =>
    obtain ⟨on, a, b⟩ := e
    rw [List.map_cons, List.nodup_cons] at h
    obtain ⟨hn, h⟩ := h
    obtain ⟨ih1, ih2⟩ := ih (z.dot on a b) h
    have hd : z.dots ((on, a, b) :: ds) = (z.dot on a b).dots ds := rfl
    have hnot : ∀ o, (o, a, b) ∉ ds := fun o ho => hn (List.mem_map.2 ⟨_, ho, rfl⟩)
    have hold : ∀ {p q}, (true, p, q) ∈ ds → (z.dot on a b).disp.pixel p q = z.disp.pixel p q := by
      intro p q hm
      rw [pixel_dot]
      by_cases hh : p = a ∧ q = b
      · obtain ⟨rfl, rfl⟩ := hh
        exact absurd hm (hnot _)
      · simp [hh]
    constructor
    · intro p q
      rw [hd, ih1, pixel_dot]
      by_cases hh : p = a ∧ q = b
      · obtain ⟨rfl, rfl⟩ := hh
        simp only [hnot, and_self, and_true, List.mem_cons, Prod.mk.injEq, or_false]
        cases on <;> simp
      · simp only [hh, List.mem_cons, Prod.mk.injEq, and_false, false_or, decide_false, Bool.xor_false]
    · have hc : (z.dot on a b).collision = true ↔
          z.collision = true ∨ (on = true ∧ z.disp.pixel a b = true) := by
        cases on <;> simp [Blit.dot]
      rw [hd, ih2, hc]
      constructor
      · rintro ((h1 | ⟨rfl, h1⟩) | ⟨p, q, h1, h2⟩)
        · exact .inl h1
        · exact .inr ⟨a, b, List.mem_cons_self, h1⟩
        · exact .inr ⟨p, q, List.mem_cons_of_mem _ h1, by rwa [hold h1] at h2⟩
      · rintro (h1 | ⟨p, q, h1, h2⟩)
        · exact .inl (.inl h1)
        · rcases List.mem_cons.1 h1 with h1 | h1
          · simp only [Prod.mk.injEq] at h1
            obtain ⟨rfl, rfl, rfl⟩ := h1
            exact .inl (.inr ⟨rfl, h2⟩)
          · exact .inr ⟨p, q, h1, by rwa [hold h1]⟩

/-- Which bits the list holds. -/
theorem mem_spriteDots {xs ys r : Nat} {bs : List Byte} {e : Dot} : e ∈ spriteDots xs ys r bs ↔
    ∃ j c, ∃ h : j < bs.length, c < 8 ∧ e = (bs[j].getLsbD (7 - c), column xs c, rowOf ys (r + j)) := by
  induction bs generalizing r with
  | nil => simp [spriteDots]
  | cons b bs ih =>
    simp only [spriteDots, List.mem_append, ih]
    constructor
    · rintro (h | ⟨j, c, h, hc, he⟩)
      · obtain ⟨c, hc, he⟩ := List.mem_map.1 h
        refine ⟨0, c, by simp, ?_, by simpa using he.symm⟩
        simp at hc
        omega
      · exact ⟨j + 1, c, by simpa using h, hc,
          by simpa [show r + (j + 1) = r + 1 + j by omega] using he⟩
    · rintro ⟨j, c, h, hc, he⟩
      cases j with
      | zero =>
        refine Or.inl (List.mem_map.2 ⟨c, ?_, by simpa using he.symm⟩)
        interval_cases c <;> simp
      | succ j =>
        exact Or.inr ⟨j, c, by simpa using h, hc,
          by simpa [show r + (j + 1) = r + 1 + j by omega] using he⟩

/-- No two bits of a sprite of at most 32 rows land on the same pixel (46_draw.md R115). -/
theorem nodup_spriteDots {xs ys r : Nat} {bs : List Byte} (hl : bs.length ≤ 32) :
    ((spriteDots xs ys r bs).map (·.2)).Nodup := by
  induction bs generalizing r with
  | nil => simp [spriteDots]
  | cons b bs ih =>
    simp only [List.length_cons] at hl
    simp only [spriteDots, List.map_append, List.map_map]
    refine List.nodup_append.2 ⟨?_, ih (by omega), ?_⟩
    · refine List.Nodup.map_on (fun c hc d hd he => ?_) (by decide)
      simp at hc hd
      simp [column, Fin.ofNat] at he
      omega
    · intro a ha d hd he
      obtain ⟨c, -, rfl⟩ := List.mem_map.1 ha
      obtain ⟨e, he', rfl⟩ := List.mem_map.1 hd
      obtain ⟨j, c', hj, -, rfl⟩ := mem_spriteDots.1 he'
      simp [rowOf, Fin.ofNat] at he
      omega

/-- The sprite loop of Dxyn from its first row on: a pixel changes exactly when a 1 bit lands on it, and
there is a collision exactly when one of these was on. -/
theorem rows_spec (z : Blit) (xs ys : Nat) {bs : List Byte} (hl : bs.length ≤ 32) :
    let covered := fun (px : Fin 64) (py : Fin 32) =>
      ∃ r c, ∃ h : r < bs.length, c < 8 ∧ bs[r].getLsbD (7 - c) = true ∧
        px.val = (xs + c) % 64 ∧ py.val = (ys + r) % 32
    (∀ px py, (z.rows xs ys 0 bs).disp.pixel px py ≠ z.disp.pixel px py ↔ covered px py) ∧
    ((z.rows xs ys 0 bs).collision = true ↔
      z.collision = true ∨ ∃ px py, covered px py ∧ z.disp.pixel px py = true) := by
  intro covered
  have hcov : ∀ px py, (true, px, py) ∈ spriteDots xs ys 0 bs ↔ covered px py := by
    intro px py
    rw [mem_spriteDots]
    constructor
    · rintro ⟨j, c, hj, hc, he⟩
      simp only [Prod.mk.injEq, Fin.ext_iff] at he
      exact ⟨j, c, hj, hc, he.1.symm, by rw [he.2.1]; rfl, by rw [he.2.2, Nat.zero_add]; rfl⟩
    · rintro ⟨j, c, hj, hc, hb, hp, hq⟩
      refine ⟨j, c, hj, hc, ?_⟩
      simp only [Prod.mk.injEq, Fin.ext_iff, Nat.zero_add]
      exact ⟨hb.symm, hp, hq⟩
  obtain ⟨h1, h2⟩ := dots_spec z (nodup_spriteDots (xs := xs) (ys := ys) (r := 0) hl)
  rw [rows_eq_dots]
  refine ⟨fun px py => ?_, ?_⟩
  · rw [h1, ← hcov]
    by_cases h : (true, px, py) ∈ spriteDots xs ys 0 bs <;> simp [h]
  · simp only [h2, hcov]

end Sys2Proof.Machine
end

