-- ==== Sys2Proof/Laws/Step.lean ====
section
/-! SUPPORT. What a step and the execute phase can do, said once: every rule of the whole machine and
every invariant is derived from these inversions. -/

namespace Sys2Proof.Machine

/-- A step that executes an instruction is `exec` of it on the advanced state. -/
theorem step_of_executes {s : State} {w : Word} {i : Instr} (h : s.Executes w i) :
    step s = exec i s.advance := by
  obtain ⟨hr, hf, hd⟩ := h
  simp only [step, State.cycle, hr, State.runCycle, hf, hd]

/-- A step executes at most one word and one instruction. -/
theorem executes_unique {s : State} {w w' : Word} {i i' : Instr} (h : s.Executes w i)
    (h' : s.Executes w' i') : w = w' ∧ i = i' := by
  obtain ⟨-, hf, hd⟩ := h
  obtain ⟨-, hf', hd'⟩ := h'
  rw [hf, Except.ok.injEq] at hf'
  subst hf'
  rw [hd, Decoded.instr.injEq] at hd'
  exact ⟨rfl, hd'⟩

/-- What `step` can do: nothing outside Running; in Running a fault of the fetch or of an unknown word,
or the execute phase of the decoded instruction. -/
theorem step_cases {s t : State} (h : step s = .next t) :
    (s.run ≠ .running ∧ t = s) ∨
    (s.run = .running ∧ (∀ w i, ¬ s.Executes w i) ∧ ∃ k w m, t = s.faultedWith k w m) ∨
    ∃ w i, s.Executes w i ∧ exec i s.advance = .next t := by
  by_cases hr : s.run = .running
  · simp only [step, State.cycle, hr, State.runCycle] at h
    split at h
    · next r hf =>
      rw [Host.Outcome.next.injEq] at h
      refine Or.inr (Or.inl ⟨hr, ?_, r.kind, none, r.memAddr, h.symm⟩)
      rintro w i ⟨-, hf', -⟩
      rw [hf] at hf'
      cases hf'
    · next w hf =>
      split at h
      · next u hd =>
        rw [Host.Outcome.next.injEq] at h
        refine Or.inr (Or.inl ⟨hr, ?_, _, some u, none, h.symm⟩)
        rintro w' i ⟨-, hf', hd'⟩
        rw [hf, Except.ok.injEq] at hf'
        subst hf'
        rw [hd] at hd'
        cases hd'
      · next i hd => exact Or.inr (Or.inr ⟨w, i, ⟨hr, hf, hd⟩, h⟩)
  · refine Or.inl ⟨hr, ?_⟩
    simp only [step, State.cycle] at h
    split at h
    · next hr' => exact absurd hr' hr
    · exact (Host.Outcome.next.inj h).symm
    · exact (Host.Outcome.next.inj h).symm

/-- The effect of a completed execute phase of each instruction, from the state `s` before the fetch's
advance to the state `t`: which update it is. -/
def Effect (s t : State) : Instr → Prop
  | .sys _ => t = s.advance
  | .cls => t = s.advance.setDisp Display.clear
  | .ret => 0 < s.sp.val ∧
      ∃ n, n.val = s.sp.val - 1 ∧ t = (s.setStack n s.stack).setPC (s.stack[s.sp.val - 1]'(by omega))
  | .jp nnn => t = s.setPC (zext16 nnn)
  | .call nnn => ∃ h : s.sp.val < 16,
      ∃ n, n.val = s.sp.val + 1 ∧
        t = (s.setStack n (s.stack.set s.sp.val (s.pc + 2))).setPC (zext16 nnn)
  | .seByte x kk => t = s.advance.skipIf (s.getV x == kk)
  | .sneByte x kk => t = s.advance.skipIf (s.getV x != kk)
  | .seReg x y => t = s.advance.skipIf (s.getV x == s.getV y)
  | .sneReg x y => t = s.advance.skipIf (s.getV x != s.getV y)
  | .skp x => t = s.advance.skipIf (s.keyNamedBy x)
  | .sknp x => t = s.advance.skipIf (!s.keyNamedBy x)
  | .ldByte x _ | .addByte x _ | .ldReg x _ | .orReg x _ | .andReg x _ | .xorReg x _ | .ldVxDT x =>
      ∃ b, t = s.advance.setV x b
  | .rnd x _ => ∃ b, t = (s.advance.setV x b).countDraw
  | .addReg x _ | .subReg x _ | .shr x _ | .subnReg x _ | .shl x _ =>
      ∃ b f, t = s.advance.setResultAndFlag x b f
  | .ldI _ | .addIVx _ | .ldFVx _ => ∃ w, t = s.advance.setI w
  | .jpV0 nnn => t = s.setPC (zext16 nnn + widen (s.getV 0))
  | .drw _ _ _ => ∃ d f, t = (s.advance.setDisp d).setV vf f
  | .ldVxK x => t = s.advance.setRun (.waitingForKey x)
  | .ldDTVx x => t = s.advance.setDT (s.getV x)
  | .ldSTVx x => t = s.advance.setST (s.getV x)
  | .ldBVx x => s.advance.writeBlock s.I.toNat (bcdDigits (s.getV x)) = .ok t
  | .ldMemVx x => s.advance.writeBlock s.I.toNat (s.regsUpTo x) = .ok t
  | .ldVxMem x => ∃ bs, bs.length = x.val + 1 ∧ t = s.advance.loadRegs 0 bs

/-- What `exec` can do in a step: a fault that leaves everything but `run`, or the instruction's own
effect. -/
theorem exec_cases {s t : State} {i : Instr} (h : exec i s.advance = .next t) :
    (∃ k m, t = s.faultedWith k (some (encode i)) m) ∨ Effect s t i := by
  have raised : ∀ {i' : Instr} {r : Raise}, s.advance.raiseIn i' r = t →
      ∃ k m, t = s.faultedWith k (some (encode i')) m := fun hr =>
    ⟨_, _, hr.symm.trans (raiseIn_advance _ _ _)⟩
  cases i <;> simp only [exec, Effect, execSys, execCls, execJp, execSeByte, execSneByte, execSeReg,
    execLdByte, execAddByte, execLdReg, execOrReg, execAndReg, execXorReg, execAddReg, execSubReg,
    execShr, execSubnReg, execShl, execSneReg, execLdI, execJpV0, execRnd, execSkp, execSknp,
    execLdVxDT, execLdVxK, execLdDTVx, execLdSTVx, execAddIVx, execLdFVx,
    Host.Outcome.next.injEq] at h ⊢
  case ret =>
    by_cases hsp : 0 < s.sp.val
    · have hp := pop_of_pos (s := s.advance) hsp
      simp only [execRet, hp, Host.Outcome.next.injEq] at h
      exact Or.inr ⟨hsp, _, rfl, h.symm⟩
    · have hp := pop_of_empty (s := s.advance) (Nat.eq_zero_of_not_pos hsp)
      simp only [execRet, hp, Host.Outcome.next.injEq] at h
      exact Or.inl (raised h)
  case call =>
    by_cases hsp : s.sp.val < 16
    · have hp := push_of_lt (s := s.advance) s.advance.pc hsp
      simp only [execCall, hp, Host.Outcome.next.injEq] at h
      exact Or.inr ⟨hsp, _, rfl, h.symm⟩
    · have hfull : s.advance.sp.val = 16 := by
        have := s.sp.isLt
        simp only [State.advance, State.setPC_sp]
        omega
      simp only [execCall, push_of_full s.advance.pc hfull, Host.Outcome.next.injEq] at h
      exact Or.inl (raised h)
  case drw =>
    unfold execDrw at h
    split at h
    · exact Or.inl (raised (Host.Outcome.next.inj h))
    · exact Or.inr ⟨_, _, (Host.Outcome.next.inj h).symm⟩
  case ldBVx =>
    unfold execLdBVx at h
    split at h
    · exact Or.inl (raised (Host.Outcome.next.inj h))
    · next hw => rw [Host.Outcome.next.injEq] at h; subst h; exact Or.inr hw
  case ldMemVx =>
    unfold execLdMemVx at h
    split at h
    · exact Or.inl (raised (Host.Outcome.next.inj h))
    · next hw => rw [Host.Outcome.next.injEq] at h; subst h; exact Or.inr hw
  case ldVxMem x =>
    unfold execLdVxMem at h
    rcases readable_or_first s.advance s.advance.I.toNat (x.val + 1) with hr | ⟨k, hk⟩
    · rw [readBlock_of_readable hr, Host.Outcome.next.injEq] at h
      exact Or.inr ⟨_, by simp, h.symm⟩
    · rw [readBlock_of_firstUnreadable hk, Host.Outcome.next.injEq] at h
      exact Or.inl (raised h)
  all_goals
    refine Or.inr ?_
    first
    | exact h.symm
    | exact ⟨_, h.symm⟩
    | exact ⟨_, _, h.symm⟩

/-- A completed block write in a step changes memory only. -/
theorem writeBlock_advance {s t : State} {addr : Nat} {bs : List Byte}
    (h : s.advance.writeBlock addr bs = .ok t) :
    ∃ m, t = s.advance.setMem m ∧ (s.MemCanonical → t.MemCanonical) ∧
      ∀ c, (∀ j, j < bs.length → c ≠ (addr + j) % 4096) → t.peek c = s.peek c := by
  rcases writable_or_first s.advance addr bs.length with hw | ⟨k, hk⟩
  · obtain ⟨m, hm, hframe, hwf⟩ := writeBlock_of_writable hw
    rw [hm, Except.ok.injEq] at h
    subst h
    exact ⟨m, rfl, hwf, hframe⟩
  · obtain ⟨r, hr, -⟩ := writeBlock_of_firstUnwritable hk
    rw [hr] at h
    cases h

end Sys2Proof.Machine
end

