-- ==== Sys2Proof/Laws/HostOps.lean ====
section
/-! SUPPORT. What the host's operations do, said once per operation. -/

namespace Sys2Proof.Machine

/-- One decrement, never below zero. -/
theorem toNat_timerTick (b : Byte) : (timerTick b).toNat = b.toNat - 1 := by
  unfold timerTick
  split_ifs with h
  · rw [h]; rfl
  · have h0 : b.toNat ≠ 0 := fun hc => h (BitVec.eq_of_toNat_eq hc)
    have hb := b.isLt
    have h1 : (1 : Byte).toNat = 1 := rfl
    rw [BitVec.toNat_sub, h1]
    omega

/-- A tick changes the two timers only. -/
theorem tick_eq (s : State) : ∃ d t, s.tick = { s with dt := d, st := t } := by
  unfold State.tick
  split
  · exact ⟨s.dt, s.st, rfl⟩
  · exact ⟨_, _, rfl⟩
  · exact ⟨_, _, rfl⟩

/-- The scheduler's count changes `cyc` by one, and the timers. -/
theorem countStep_eq (s : State) :
    ∃ d t, s.countStep = { s with dt := d, st := t, cyc := s.cyc + 1 } := by
  simp only [State.countStep]
  split
  · obtain ⟨d, t, h⟩ := tick_eq { s with cyc := s.cyc + 1 }
    exact ⟨d, t, h⟩
  · exact ⟨s.dt, s.st, rfl⟩

/-- `set_key_state` changes the keys, and on a completed wait a register and the run state. -/
theorem keyChanged_eq (s : State) (k : Fin 16) (old p : Bool) :
    ∃ v r, s.keyChanged k old p = { s with v := v, run := r } := by
  unfold State.keyChanged
  split
  · split
    · exact ⟨_, _, rfl⟩
    · exact ⟨s.v, s.run, rfl⟩
  · exact ⟨s.v, s.run, rfl⟩
  · exact ⟨s.v, s.run, rfl⟩

/-- A loaded image fits, and only memory changes. -/
theorem load_cases {s t : State} {bytes : List Byte} (h : s.load bytes = some t) :
    bytes.length ≤ 3584 ∧ t = s.setMem (s.mem.writeAll s.cfg.fontBase origin bytes) := by
  unfold State.load at h
  split_ifs at h with hl
  refine ⟨?_, (Option.some.inj h).symm⟩
  simpa [maxImage, memSize, origin] using hl

/-- A loop that starts outside Running does nothing. -/
theorem runLoop_of_not_running {s : State} (o : StepOutcome) (n : Nat) (h : s.run ≠ .running) :
    s.runLoop o n = (s, o) := by
  cases n with
  | zero => rfl
  | succ n =>
    simp only [State.runLoop]
    split
    · rfl
    · rfl
    · next hr => exact absurd hr h

/-- The outcome is a fault only in a faulted state. -/
theorem run_of_outcome_fault {s : State} {dirty : Bool} {f : FaultRecord}
    (h : s.outcome dirty = .fault f) : s.run = .faulted f := by
  unfold State.outcome at h
  split at h
  · cases h
  · cases h
  · next hr => rw [hr]; cases h; rfl

/-- What the loop does from Running with a step left: one step, then its outcome decides. -/
theorem runLoop_succ {s t : State} (o : StepOutcome) (n : Nat) (hr : s.run = .running)
    (hs : step s = .next t) :
    (∃ f, t.run = .faulted f ∧ s.runLoop o (n + 1) = (t, .fault f)) ∨
    s.runLoop o (n + 1) = t.countStep.runLoop (t.outcome s.stepDirty) n := by
  simp only [State.runLoop, hr, hs]
  split
  · next f ho => exact Or.inl ⟨f, run_of_outcome_fault ho, rfl⟩
  · next ho => exact Or.inr (by rw [ho])

end Sys2Proof.Machine
end

