-- ==== Sys2Proof/Laws/PerInstr.lean ====
section
/-! SUPPORT. Family EncodesRow, one lemma per constructor: the word of the instruction matches the row
that spec/opcode_table.json gives its mnemonic. -/

namespace Sys2Proof.Laws.EncodesRow

/-- The row's mask (30_encoding.md R63). -/
def rowMask : Instr → Word
  | .sys _ => 0xF000
  | .cls => 0xFFFF
  | .ret => 0xFFFF
  | .jp _ => 0xF000
  | .call _ => 0xF000
  | .seByte _ _ => 0xF000
  | .sneByte _ _ => 0xF000
  | .seReg _ _ => 0xF00F
  | .ldByte _ _ => 0xF000
  | .addByte _ _ => 0xF000
  | .ldReg _ _ => 0xF00F
  | .orReg _ _ => 0xF00F
  | .andReg _ _ => 0xF00F
  | .xorReg _ _ => 0xF00F
  | .addReg _ _ => 0xF00F
  | .subReg _ _ => 0xF00F
  | .shr _ _ => 0xF00F
  | .subnReg _ _ => 0xF00F
  | .shl _ _ => 0xF00F
  | .sneReg _ _ => 0xF00F
  | .ldI _ => 0xF000
  | .jpV0 _ => 0xF000
  | .rnd _ _ => 0xF000
  | .drw _ _ _ => 0xF000
  | .skp _ => 0xF0FF
  | .sknp _ => 0xF0FF
  | .ldVxDT _ => 0xF0FF
  | .ldVxK _ => 0xF0FF
  | .ldDTVx _ => 0xF0FF
  | .ldSTVx _ => 0xF0FF
  | .addIVx _ => 0xF0FF
  | .ldFVx _ => 0xF0FF
  | .ldBVx _ => 0xF0FF
  | .ldMemVx _ => 0xF0FF
  | .ldVxMem _ => 0xF0FF

/-- The row's match (30_encoding.md R63). -/
def rowMatch : Instr → Word
  | .sys _ => 0x0000
  | .cls => 0x00E0
  | .ret => 0x00EE
  | .jp _ => 0x1000
  | .call _ => 0x2000
  | .seByte _ _ => 0x3000
  | .sneByte _ _ => 0x4000
  | .seReg _ _ => 0x5000
  | .ldByte _ _ => 0x6000
  | .addByte _ _ => 0x7000
  | .ldReg _ _ => 0x8000
  | .orReg _ _ => 0x8001
  | .andReg _ _ => 0x8002
  | .xorReg _ _ => 0x8003
  | .addReg _ _ => 0x8004
  | .subReg _ _ => 0x8005
  | .shr _ _ => 0x8006
  | .subnReg _ _ => 0x8007
  | .shl _ _ => 0x800E
  | .sneReg _ _ => 0x9000
  | .ldI _ => 0xA000
  | .jpV0 _ => 0xB000
  | .rnd _ _ => 0xC000
  | .drw _ _ _ => 0xD000
  | .skp _ => 0xE09E
  | .sknp _ => 0xE0A1
  | .ldVxDT _ => 0xF007
  | .ldVxK _ => 0xF00A
  | .ldDTVx _ => 0xF015
  | .ldSTVx _ => 0xF018
  | .addIVx _ => 0xF01E
  | .ldFVx _ => 0xF029
  | .ldBVx _ => 0xF033
  | .ldMemVx _ => 0xF055
  | .ldVxMem _ => 0xF065

/-- The instruction's word matches its row: `(w AND mask) = match`. -/
def Statement (i : Instr) : Prop := encode i &&& rowMask i = rowMatch i

theorem sys (nnn : BitVec 12) : Statement (.sys nnn) :=
  (formatNNN_and_high _ _).trans rfl

theorem cls : Statement .cls :=
  (by decide : encode .cls &&& 0xFFFF = 0x00E0)

theorem ret : Statement .ret :=
  (by decide : encode .ret &&& 0xFFFF = 0x00EE)

theorem jp (nnn : BitVec 12) : Statement (.jp nnn) :=
  (formatNNN_and_high _ _).trans rfl

theorem call (nnn : BitVec 12) : Statement (.call nnn) :=
  (formatNNN_and_high _ _).trans rfl

theorem seByte (x : Reg) (kk : Byte) : Statement (.seByte x kk) :=
  (formatXKK_and_high _ _ _).trans rfl

theorem sneByte (x : Reg) (kk : Byte) : Statement (.sneByte x kk) :=
  (formatXKK_and_high _ _ _).trans rfl

theorem seReg (x : Reg) (y : Reg) : Statement (.seReg x y) :=
  (formatXYN_and_low _ _ _ _).trans rfl

theorem ldByte (x : Reg) (kk : Byte) : Statement (.ldByte x kk) :=
  (formatXKK_and_high _ _ _).trans rfl

theorem addByte (x : Reg) (kk : Byte) : Statement (.addByte x kk) :=
  (formatXKK_and_high _ _ _).trans rfl

theorem ldReg (x : Reg) (y : Reg) : Statement (.ldReg x y) :=
  (formatXYN_and_low _ _ _ _).trans rfl

theorem orReg (x : Reg) (y : Reg) : Statement (.orReg x y) :=
  (formatXYN_and_low _ _ _ _).trans rfl

theorem andReg (x : Reg) (y : Reg) : Statement (.andReg x y) :=
  (formatXYN_and_low _ _ _ _).trans rfl

theorem xorReg (x : Reg) (y : Reg) : Statement (.xorReg x y) :=
  (formatXYN_and_low _ _ _ _).trans rfl

theorem addReg (x : Reg) (y : Reg) : Statement (.addReg x y) :=
  (formatXYN_and_low _ _ _ _).trans rfl

theorem subReg (x : Reg) (y : Reg) : Statement (.subReg x y) :=
  (formatXYN_and_low _ _ _ _).trans rfl

theorem shr (x : Reg) (y : Reg) : Statement (.shr x y) :=
  (formatXYN_and_low _ _ _ _).trans rfl

theorem subnReg (x : Reg) (y : Reg) : Statement (.subnReg x y) :=
  (formatXYN_and_low _ _ _ _).trans rfl

theorem shl (x : Reg) (y : Reg) : Statement (.shl x y) :=
  (formatXYN_and_low _ _ _ _).trans rfl

theorem sneReg (x : Reg) (y : Reg) : Statement (.sneReg x y) :=
  (formatXYN_and_low _ _ _ _).trans rfl

theorem ldI (nnn : BitVec 12) : Statement (.ldI nnn) :=
  (formatNNN_and_high _ _).trans rfl

theorem jpV0 (nnn : BitVec 12) : Statement (.jpV0 nnn) :=
  (formatNNN_and_high _ _).trans rfl

theorem rnd (x : Reg) (kk : Byte) : Statement (.rnd x kk) :=
  (formatXKK_and_high _ _ _).trans rfl

theorem drw (x : Reg) (y : Reg) (n : Fin 16) : Statement (.drw x y n) :=
  (formatXYN_and_high _ _ _ _).trans rfl

theorem skp (x : Reg) : Statement (.skp x) :=
  (formatXKK_and_low _ _ _).trans rfl

theorem sknp (x : Reg) : Statement (.sknp x) :=
  (formatXKK_and_low _ _ _).trans rfl

theorem ldVxDT (x : Reg) : Statement (.ldVxDT x) :=
  (formatXKK_and_low _ _ _).trans rfl

theorem ldVxK (x : Reg) : Statement (.ldVxK x) :=
  (formatXKK_and_low _ _ _).trans rfl

theorem ldDTVx (x : Reg) : Statement (.ldDTVx x) :=
  (formatXKK_and_low _ _ _).trans rfl

theorem ldSTVx (x : Reg) : Statement (.ldSTVx x) :=
  (formatXKK_and_low _ _ _).trans rfl

theorem addIVx (x : Reg) : Statement (.addIVx x) :=
  (formatXKK_and_low _ _ _).trans rfl

theorem ldFVx (x : Reg) : Statement (.ldFVx x) :=
  (formatXKK_and_low _ _ _).trans rfl

theorem ldBVx (x : Reg) : Statement (.ldBVx x) :=
  (formatXKK_and_low _ _ _).trans rfl

theorem ldMemVx (x : Reg) : Statement (.ldMemVx x) :=
  (formatXKK_and_low _ _ _).trans rfl

theorem ldVxMem (x : Reg) : Statement (.ldVxMem x) :=
  (formatXKK_and_low _ _ _).trans rfl

end Sys2Proof.Laws.EncodesRow
end

