-- ==== Sys2Proof/Tests/Slice0.lean ====
section
/-! SUPPORT. Small tests, their expected results taken from spec/95_test_vectors.md (the vector is
named in each comment) and from the encodings of 30_encoding.md R63. -/

namespace Sys2Proof.Machine.Tests

/-! ## WellFormed refuses what no word decodes to (30_encoding.md R64) -/

theorem test_wf_refuses_sys_0E0 : Instr.wellFormed (.sys 0x0E0) = false := by decide
theorem test_wf_refuses_sys_0EE : Instr.wellFormed (.sys 0x0EE) = false := by decide
theorem test_wf_accepts_sys_0E1 : Instr.wellFormed (.sys 0x0E1) = true := by decide

/-! ## Decoding: one word per constructor, its digits written out from the pattern of R63 -/

theorem test_decode_sys : decode 0x0123 = .instr (.sys 0x123) := by decide
theorem test_decode_cls : decode 0x00E0 = .instr .cls := by decide
theorem test_decode_ret : decode 0x00EE = .instr .ret := by decide
theorem test_decode_jp : decode 0x1234 = .instr (.jp 0x234) := by decide
theorem test_decode_call : decode 0x2300 = .instr (.call 0x300) := by decide
theorem test_decode_seByte : decode 0x3005 = .instr (.seByte 0 0x05) := by decide
theorem test_decode_sneByte : decode 0x4311 = .instr (.sneByte 3 0x11) := by decide
theorem test_decode_seReg : decode 0x5120 = .instr (.seReg 1 2) := by decide
theorem test_decode_ldByte : decode 0x6FAB = .instr (.ldByte 15 0xAB) := by decide
theorem test_decode_addByte : decode 0x7001 = .instr (.addByte 0 0x01) := by decide
theorem test_decode_ldReg : decode 0x8F10 = .instr (.ldReg 15 1) := by decide
theorem test_decode_orReg : decode 0x8AB1 = .instr (.orReg 10 11) := by decide
theorem test_decode_andReg : decode 0x8AB2 = .instr (.andReg 10 11) := by decide
theorem test_decode_xorReg : decode 0x8AB3 = .instr (.xorReg 10 11) := by decide
theorem test_decode_addReg : decode 0x8AB4 = .instr (.addReg 10 11) := by decide
theorem test_decode_subReg : decode 0x8AB5 = .instr (.subReg 10 11) := by decide
theorem test_decode_shr : decode 0x8126 = .instr (.shr 1 2) := by decide
theorem test_decode_subnReg : decode 0x8127 = .instr (.subnReg 1 2) := by decide
theorem test_decode_shl : decode 0x8ABE = .instr (.shl 10 11) := by decide
theorem test_decode_sneReg : decode 0x9120 = .instr (.sneReg 1 2) := by decide
theorem test_decode_ldI : decode 0xAFFF = .instr (.ldI 0xFFF) := by decide
theorem test_decode_jpV0 : decode 0xB300 = .instr (.jpV0 0x300) := by decide
theorem test_decode_rnd : decode 0xC30F = .instr (.rnd 3 0x0F) := by decide
theorem test_decode_drw : decode 0xD12F = .instr (.drw 1 2 15) := by decide
theorem test_decode_skp : decode 0xE19E = .instr (.skp 1) := by decide
theorem test_decode_sknp : decode 0xE1A1 = .instr (.sknp 1) := by decide
theorem test_decode_ldVxDT : decode 0xF207 = .instr (.ldVxDT 2) := by decide
theorem test_decode_ldVxK : decode 0xF30A = .instr (.ldVxK 3) := by decide
theorem test_decode_ldDTVx : decode 0xF115 = .instr (.ldDTVx 1) := by decide
theorem test_decode_ldSTVx : decode 0xF318 = .instr (.ldSTVx 3) := by decide
theorem test_decode_addIVx : decode 0xF01E = .instr (.addIVx 0) := by decide
theorem test_decode_ldFVx : decode 0xF129 = .instr (.ldFVx 1) := by decide
theorem test_decode_ldBVx : decode 0xF033 = .instr (.ldBVx 0) := by decide
theorem test_decode_ldMemVx : decode 0xFF55 = .instr (.ldMemVx 15) := by decide
theorem test_decode_ldVxMem : decode 0xF365 = .instr (.ldVxMem 3) := by decide

/-! Unknown words of V-DEC and W9. -/
theorem test_decode_unknown_5 : decode 0x5121 = .unknown 0x5121 := by decide
theorem test_decode_unknown_5001 : decode 0x5001 = .unknown 0x5001 := by decide
theorem test_decode_unknown_8 : decode 0x8ABF = .unknown 0x8ABF := by decide
theorem test_decode_unknown_9 : decode 0x912F = .unknown 0x912F := by decide
theorem test_decode_unknown_E : decode 0xE19F = .unknown 0xE19F := by decide
theorem test_decode_unknown_F : decode 0xF130 = .unknown 0xF130 := by decide

/-- R42: the 80 glyph bytes, as the rule lists them (its left and right columns in turn). -/
theorem test_font_left : fontBytes.take 40 =
    [0xF0, 0x90, 0x90, 0x90, 0xF0, 0x20, 0x60, 0x20, 0x20, 0x70, 0xF0, 0x10, 0xF0, 0x80, 0xF0,
     0xF0, 0x10, 0xF0, 0x10, 0xF0, 0x90, 0x90, 0xF0, 0x10, 0x10, 0xF0, 0x80, 0xF0, 0x10, 0xF0,
     0xF0, 0x80, 0xF0, 0x90, 0xF0, 0xF0, 0x10, 0x20, 0x40, 0x40] := by decide
theorem test_font_right : fontBytes.drop 40 =
    [0xF0, 0x90, 0xF0, 0x90, 0xF0, 0xF0, 0x90, 0xF0, 0x10, 0xF0, 0xF0, 0x90, 0xF0, 0x90, 0x90,
     0xE0, 0x90, 0xE0, 0x90, 0xE0, 0xF0, 0x80, 0x80, 0x80, 0xF0, 0xE0, 0x90, 0x90, 0x90, 0xE0,
     0xF0, 0x80, 0xF0, 0x80, 0xF0, 0xF0, 0x80, 0xF0, 0x80, 0x80] := by decide
theorem test_font_length : fontBytes.length = 80 := by decide

/-! ## One step each -/

/-- The reset state about to fetch `w` at 0x200. -/
def start (w : Nat) : State := State.reset.withFetchWord 16 w

/-- `start w` with two registers set. -/
def start2 (w : Nat) (x : Reg) (a : Byte) (y : Reg) (b : Byte) : State :=
  ((start w).setV x a).setV y b

/-- The state after a step. -/
def after (s : State) : State :=
  match step s with
  | .next t => t
  | .fault _ => s
  | .refused _ => s

/-- The step answers a next state. -/
def answers (s : State) : Bool :=
  match step s with
  | .next _ => true
  | .fault _ => false
  | .refused _ => false

theorem step_eq_after {s : State} (h : answers s = true) : step s = .next (after s) := by
  unfold answers at h
  unfold after
  split at h
  · next t ht => rw [ht]
  · cases h
  · cases h

/-- `s` with SHIFT_SOURCE set. -/
def withShift (s : State) (q : ShiftSource) : State := { s with cfg := { s.cfg with shiftSource := some q } }

/-- `s` with both policies set. -/
def withPolicies (s : State) (a : AddrPolicy) (l : LowWritePolicy) : State :=
  { s with cfg := { s.cfg with addrPolicy := a, lowWritePolicy := l } }

/-- SY1. -/
theorem test_sys_advances : (after (start 0x0123)).pc = 0x202 := by decide
/-- W7. -/
theorem test_cls_clears :
    (after ((start 0x00E0).setDisp (Display.clear.toggle 10 5))).disp.pixel 10 5 = false := by decide
/-- SY3: the popped entry becomes PC and stays in its slot. -/
theorem test_ret_pops :
    (let t := after ((start 0x00EE).setStack 2 ((State.reset.stack.set 0 0x206).set 1 0x40A))
     (t.sp, t.pc, t.stack[1])) = (1, 0x40A, 0x40A) := by decide
/-- SY4. -/
theorem test_ret_underflow : after (start 0x00EE) =
    (start 0x00EE).faultedWith .stackUnderflow (some 0x00EE) none := by decide
/-- FE1. -/
theorem test_jp : (after (start 0x1234)).pc = 0x234 := by decide
/-- JC5 at A = 0x200. -/
theorem test_call_last_slot :
    (let t := after ((start 0x2400).setStack 15 State.reset.stack)
     (t.sp, t.pc, t.stack[15])) = (16, 0x400, 0x202) := by decide
/-- JC6 at A = 0x200. -/
theorem test_call_overflow :
    (let s := (start 0x2400).setStack 16 State.reset.stack
     after s = s.faultedWith .stackOverflow (some 0x2400) none) := by decide
/-- SK1, SK2. -/
theorem test_se_byte : (after ((start 0x3005).setV 0 5)).pc = 0x204
    ∧ (after ((start 0x3005).setV 0 4)).pc = 0x202 := by decide
/-- SK3, SK4. -/
theorem test_sne_byte : (after ((start 0x4310).setV 3 0x10)).pc = 0x202
    ∧ (after ((start 0x4311).setV 3 0x10)).pc = 0x204 := by decide
/-- SK5, SK6. -/
theorem test_se_reg : (after (start2 0x5120 1 7 2 7)).pc = 0x204
    ∧ (after (start2 0x5120 1 7 2 8)).pc = 0x202 := by decide
/-- SK8, SK9. -/
theorem test_sne_reg : (after ((start 0x9110).setV 1 7)).pc = 0x202
    ∧ (after (start2 0x9120 1 1 2 2)).pc = 0x204 := by decide
/-- SK10. -/
theorem test_ld_byte : (after (start 0x6FAB)).getV 15 = 0xAB := by decide
/-- SK11: no carry flag. -/
theorem test_add_byte_wraps :
    (let t := after (start2 0x7001 0 0xFF 15 0x55)
     (t.getV 0, t.getV 15)) = (0x00, 0x55) := by decide
/-- AL1. -/
theorem test_ld_reg : (after ((start 0x8010).setV 1 0x3C)).getV 0 = 0x3C := by decide
/-- AL3: VF unchanged. -/
theorem test_or :
    (let t := after ((start2 0x8011 0 0x0F 1 0xF0).setV 15 0x77)
     (t.getV 0, t.getV 15)) = (0xFF, 0x77) := by decide
/-- AL4. -/
theorem test_and : (after (start2 0x8012 0 0x3C 1 0x0F)).getV 0 = 0x0C := by decide
/-- AL5. -/
theorem test_xor : (after (start2 0x8013 0 0x3C 1 0x0F)).getV 0 = 0x33 := by decide
/-- W3. -/
theorem test_add_carries :
    (let t := after (start2 0x8014 0 0xC8 1 0x64)
     (t.getV 0, t.getV 15)) = (0x2C, 1) := by decide
/-- AL8, AL9: with x = F the flag is written last. -/
theorem test_add_flag_last : (after (start2 0x8F14 15 0xFF 1 0x01)).getV 15 = 1
    ∧ (after (start2 0x8F14 15 0x01 1 0x01)).getV 15 = 0 := by decide
/-- W5. -/
theorem test_sub_borrows :
    (let t := after (start2 0x8015 0 0x05 1 0x64)
     (t.getV 0, t.getV 15)) = (0xA1, 0) := by decide
/-- AL11. -/
theorem test_sub_flag_last : (after (start2 0x8F15 15 0x05 1 0x06)).getV 15 = 0 := by decide
/-- AL14, AL15. -/
theorem test_shr_sources :
    (after (withShift (start2 0x8016 0 2 1 3) .vy)).getV 15 = 1
    ∧ (after (withShift (start2 0x8016 0 2 1 3) .vx)).getV 15 = 0 := by decide
/-- AL13. -/
theorem test_subn :
    (let t := after (start2 0x8017 0 0x64 1 0x05)
     (t.getV 0, t.getV 15)) = (0xA1, 0) := by decide
/-- AL16, AL17. -/
theorem test_shl_sources :
    (after (withShift (start2 0x801E 0 0x01 1 0x81) .vy)).getV 15 = 1
    ∧ (after (withShift (start2 0x801E 0 0x01 1 0x81) .vx)).getV 15 = 0 := by decide
/-- IX1. -/
theorem test_ld_I : (after (start 0xAFFF)).I = 0x0FFF := by decide
/-- IX4. -/
theorem test_jp_V0 : (after ((start 0xBFFF).setV 0 0xFF)).pc = 0x10FE := by decide
/-- IX7: mask 00 gives 00 whatever the drawn byte is. -/
theorem test_rnd_mask_zero : (after ((start 0xC300).setV 3 0x55)).getV 3 = 0x00 := by
  have h : ∀ r : Byte, r &&& 0x00 = 0x00 := by decide
  exact h (Config.randomByte 0)
/-- IX8: mask FF gives the drawn byte, whatever it is. -/
theorem test_rnd_mask_all : (after (start 0xC3FF)).getV 3 = Config.randomByte 0 := by
  have h : ∀ r : Byte, r &&& 0xFF = r := by decide
  exact h (Config.randomByte 0)
/-- DR4: column wrap. -/
theorem test_drw_wraps_column :
    (let t := after ((start2 0xD121 1 60 2 0).setI 0x300 |>.poke 0x300 0xFF)
     (t.disp.pixel 63 0, t.disp.pixel 3 0, t.disp.pixel 4 0, t.disp.pixel 59 0))
      = (true, true, false, false) := by decide
/-- KY1, KY3: the low nibble selects the key. -/
theorem test_skp : (after (((start 0xE19E).setV 1 0x17).setKey 7 true)).pc = 0x204
    ∧ (after ((start 0xE19E).setV 1 7)).pc = 0x202 := by decide
/-- KY4, KY5. -/
theorem test_sknp : (after ((start 0xE1A1).setV 1 7)).pc = 0x204
    ∧ (after (((start 0xE1A1).setV 1 7).setKey 7 true)).pc = 0x202 := by decide
/-- FX1. -/
theorem test_ld_Vx_DT : (after ((start 0xF207).setDT 7)).getV 2 = 7 := by decide
/-- FX24. -/
theorem test_wait_for_key :
    (let t := after (start 0xF30A)
     (t.run, t.pc)) = (.waitingForKey 3, 0x202) := by decide
/-- FX2. -/
theorem test_ld_DT : (after ((start 0xF115).setV 1 7)).dt = 7 := by decide
/-- FX3. -/
theorem test_ld_ST : (after ((start 0xF318).setV 3 0x3C)).soundActive = true := by decide
/-- FX6. -/
theorem test_add_I_wraps :
    (after (((start 0xF01E).setI 0xFFFF).setV 0 1)).I = 0x0000 := by decide
/-- FX9. -/
theorem test_ld_F : (after ((start 0xF029).setV 0 0x1F)).I = 0x04B := by decide
/-- FX11. -/
theorem test_bcd :
    (let t := after (((start 0xF033).setI 0x300).setV 0 254)
     (t.peek 0x300, t.peek 0x301, t.peek 0x302)) = (2, 5, 4) := by decide
/-- HO8: range first, then the wrapped address is reserved. -/
theorem test_bcd_wrap_reserved :
    (let s := withPolicies (((start 0xF033).setI 0xFFE).setV 0 254) .wrap .fault
     after s = s.faultedWith .reservedWrite (some 0xF033) (some 0x000)) := by decide
/-- HO9: the first failing address is reported. -/
theorem test_store_reserved :
    (let s := (start 0xF155).setI 0x1FF
     after s = s.faultedWith .reservedWrite (some 0xF155) (some 0x1FF)) := by decide
/-- FX18, its last byte. -/
theorem test_store_sixteen :
    (after (((start 0xFF55).setI 0x400).setV 15 0x0F)).peek 0x40F = 0x0F := by decide
/-- FX23: reading the glyphs is allowed. -/
theorem test_load_glyph :
    (let t := after (start 0xF465)
     (t.getV 0, t.getV 1, t.getV 4, t.getV 5)) = (0xF0, 0x90, 0xF0, 0) := by decide
/-- FX19 for the load: nothing is written. -/
theorem test_load_out_of_range :
    (let s := (start 0xF165).setI 0xFFF
     after s = s.faultedWith .memoryOutOfRange (some 0xF165) (some 0x1000)) := by decide

/-! ## Fetch and step -/

/-- FE2. -/
theorem test_fetch_past_end :
    (let s := State.reset.setPC 0xFFF
     after s = s.faultedWith .memoryOutOfRange none (some 0x1000)) := by decide
/-- FE3. -/
theorem test_fetch_wraps :
    (let s := withPolicies ((State.reset.setPC 0xFFF).poke 0xFFF 0x60) .wrap .fault
     ((after s).getV 0, (after s).pc)) = (0xF0, 0x1001) := by decide
/-- W9. -/
theorem test_unknown_faults :
    after (start 0x5002) = (start 0x5002).faultedWith .unknownOpcode (some 0x5002) none := by decide
/-- The host's reading of a table word. -/
theorem test_table_word : decodeTableWord 16 0x8AB4 = some (.addReg 10 11) := by decide

/-! ## Host operations -/

/-- FX25. -/
theorem test_key_completes_wait :
    (match (State.reset.setRun (.waitingForKey 3)).setKeyState 7 true with
     | .next t => (t.getV 3, t.run, t.key[7])
     | .fault _ => (0, .running, false)
     | .refused _ => (0, .running, false)) = (7, .running, true) := by decide
/-- W10: a tick never takes a timer below 0. -/
theorem test_tick : (((State.reset.setDT 10).setST 0).tick.dt, State.reset.tick.dt) = (9, 0) := by
  decide
/-- HO7 in one word. -/
theorem test_dump_word :
    (match State.reset.load [0x60, 0x05] with
     | some t => wordOfBytes (t.peek 0x200) (t.peek 0x201)
     | none => 0) = 0x6005 := by decide
/-- The record of the unknown word 5001 at 0x200. -/
def someFault : FaultRecord := { kind := .unknownOpcode, word := some 0x5001, addr := 0x200, memAddr := none }

/-- RL10. -/
theorem test_run_for_fault : (start 0x5001).runFor 3
    = ((start 0x5001).setRun (.faulted someFault), .fault someFault) := by decide
/-- RL11. -/
theorem test_run_for_waiting : (State.reset.setRun (.waitingForKey 0)).runFor 10
    = (State.reset.setRun (.waitingForKey 0), .ok 0x200 false true) := by decide

/-! ## Witnesses: a concrete state and operands that meet the hypotheses of each statement -/

/-- Every mask and match of an encoding clause is met by a word: the row's own pattern. -/
theorem witness_encodings : opcodeMap.all (fun r => r.pattern &&& r.mask == r.pattern) = true := by
  decide
theorem witness_DecodeInvertsEncode : Instr.wellFormed (.drw 15 0 15) = true ∧
    Instr.wellFormed (.sys 0xFFF) = true := by decide
theorem witness_EncodeInvertsDecode : decode 0xFF65 = .instr (.ldVxMem 15) ∧
    decode 0xFFFF = .unknown 0xFFFF := by decide

theorem witness_StepRunsDecodedInstruction : (start 0x6FAB).Executes 0x6FAB (.ldByte 15 0xAB) :=
  ⟨rfl, rfl, by decide⟩
/-- The last fetch under `fault`, and one across the end under `wrap`. -/
theorem witness_FetchIsBigEndian :
    ((State.reset.setPC 0xFFE).Readable 0xFFE ∧ (State.reset.setPC 0xFFE).Readable 0xFFF) ∧
    (withPolicies (State.reset.setPC 0xFFF) .wrap .fault).Readable 0x1000 :=
  ⟨⟨.inl (by decide), .inl (by decide)⟩, .inr rfl⟩

/-- No address from 4096 on is readable under ADDR_POLICY = fault. -/
theorem not_readable {s : State} {a : Nat} (h : s.cfg.addrPolicy = .fault) (ha : 4096 ≤ a) :
    ¬ s.Readable a := by
  rintro (h1 | h1)
  · exact absurd ha (Nat.not_le.2 h1)
  · rw [h] at h1; cases h1

/-- Both failing bytes of the fetch. -/
theorem witness_FetchBeyondStoreFaults :
    (State.reset.setPC 0x1000).FirstUnreadable 0x1000 2 0 ∧
    (State.reset.setPC 0xFFF).FirstUnreadable 0xFFF 2 1 ∧ (State.reset.setPC 0xFFF).run = .running :=
  ⟨⟨by decide, fun j hj => absurd hj (Nat.not_lt_zero j), not_readable rfl (by decide)⟩,
   ⟨by decide, fun j hj => .inl (show 0xFFF + j < 4096 by omega), not_readable rfl (by decide)⟩, rfl⟩
theorem witness_UnknownWordFaults : (start 0x5001).run = .running ∧
    (start 0x5001).fetch = .ok 0x5001 ∧ decode 0x5001 = .unknown 0x5001 := ⟨rfl, rfl, by decide⟩
theorem witness_WaitingStepIsIdle :
    (State.reset.setRun (.waitingForKey 15)).run = .waitingForKey 15 := rfl

theorem witness_FaultedStepIsIdle :
    (State.reset.setRun (.faulted someFault)).run = .faulted someFault := rfl
/-- A step that ends faulted, one that waits, and a dirty one. -/
theorem witness_StepOutcomeReports :
    (step (start 0x5001) = .next (after (start 0x5001)) ∧
      (after (start 0x5001)).run = .faulted someFault) ∧
    (step (start 0xF30A) = .next (after (start 0xF30A)) ∧
      (after (start 0xF30A)).run = .waitingForKey 3) ∧ (start 0x00E0).Executes 0x00E0 .cls :=
  ⟨⟨step_eq_after (by decide), by decide⟩, ⟨step_eq_after (by decide), by decide⟩, rfl, rfl,
   by decide⟩

/-- Words beside the two of family 0 that are not SYS. -/
theorem witness_SysDoesNothing :
    ([0x0000, 0x00DF, 0x00E1, 0x00ED, 0x00EF, 0x0FFF] : List Word).all (fun w =>
      w &&& 0xF000 == 0x0000 && w != 0x00E0 && w != 0x00EE) = true := by decide
theorem witness_ClsClearsDisplay : (start 0x00E0).Executes 0x00E0 .cls := ⟨rfl, rfl, by decide⟩
/-- A stack of one entry, a full one, and the empty one at 00EE. -/
theorem witness_RetPopsReturnAddress : 0 < (State.reset.setStack 1 State.reset.stack).sp.val ∧
    0 < (State.reset.setStack 16 State.reset.stack).sp.val ∧
    (start 0x00EE).Executes 0x00EE .ret ∧ (start 0x00EE).sp.val = 0 :=
  ⟨by decide, by decide, ⟨rfl, rfl, by decide⟩, rfl⟩
/-- An empty stack, one with one free slot, and the full one at 2nnn. -/
theorem witness_CallPushesReturnAddress : State.reset.sp.val < 16 ∧
    (State.reset.setStack 15 State.reset.stack).sp.val < 16 ∧
    ((start 0x2400).setStack 16 State.reset.stack).Executes 0x2400 (.call 0x400) ∧
    ((start 0x2400).setStack 16 State.reset.stack).sp.val = 16 :=
  ⟨by decide, by decide, ⟨rfl, rfl, by decide⟩, rfl⟩
theorem witness_CallThenReturnComesBack : (State.reset.setStack 15 State.reset.stack).sp.val < 16 := by
  decide
theorem witness_RegisterSkips : (0x5001#16 >>> 12 = 0x5 ∧ 0x5001#16 &&& 0xF ≠ 0) ∧
    (0x9FFF#16 >>> 12 = 0x9 ∧ 0x9FFF#16 &&& 0xF ≠ 0) := by decide
/-- Key numbers 0 and F, the high nibble ignored. -/
theorem witness_KeySkips : ((State.reset.setV 1 0xFF).getV 1).toNat % 16 = (15 : Fin 16).val ∧
    ((State.reset.setV 1 0x10).getV 1).toNat % 16 = (0 : Fin 16).val := by decide
theorem witness_not_VF : (0 : Reg) ≠ vf ∧ (14 : Reg) ≠ vf := by decide
/-- Both settings of SHIFT_SOURCE. -/
theorem witness_ShiftsSetBitShiftedOut :
    ((withShift State.reset .vy).cfg.shift = .vy ∧ (withShift State.reset .vy).cfg.shift ≠ .vx) ∧
    (withShift State.reset .vx).cfg.shift = .vx ∧ (withShift State.reset .vx).cfg.shift ≠ .vy := by
  decide

/-- One row at the last address, and none at the first address past the end. -/
theorem witness_DrawXorsSprite :
    (∀ r, r < (1 : Fin 16).val → (State.reset.setI 0xFFF).Readable (0xFFF + r)) ∧
    ∀ r, r < (0 : Fin 16).val → (State.reset.setI 0x1000).Readable (0x1000 + r) :=
  ⟨fun r hr => .inl (show 0xFFF + r < 4096 from by have : r < 1 := hr; omega),
   fun r hr => absurd hr (Nat.not_lt_zero r)⟩
/-- Glyph 0 at (0, 0) covers the corner pixel; it collides with a lit corner and not with a dark
display. -/
theorem witness_SpriteCollides :
    (State.reset.setDisp (Display.clear.toggle 0 0)).SpriteCollides 0 0 1 ∧
    ¬ State.reset.SpriteCollides 0 0 1 :=
  ⟨⟨0, 0, ⟨0, 0, by decide⟩, by decide⟩, fun ⟨px, py, _, h⟩ => by
    rw [show State.reset.disp = Display.clear from rfl, pixel_clear] at h
    cases h⟩
theorem witness_DrawBeyondStoreFaults :
    ((start 0xD122).setI 0xFFF).Executes 0xD122 (.drw 1 2 2) ∧
    ((start 0xD122).setI 0xFFF).FirstUnreadable 0xFFF 2 1 :=
  ⟨⟨rfl, rfl, by decide⟩, by decide, fun j hj => .inl (show 0xFFF + j < 4096 by omega),
   not_readable rfl (by decide)⟩
/-- A first draw on the dark display. -/
theorem witness_DoubleDrawRestores :
    (∃ t, exec (.drw 1 2 1) State.reset = .next t ∧ t.getV 1 = State.reset.getV 1 ∧
      t.getV 2 = State.reset.getV 2) ∧
    State.reset.SpriteCovers 1 2 1 0 0 ∧ State.reset.disp.pixel 0 0 = false :=
  ⟨⟨_, rfl, by decide, by decide⟩, ⟨0, 0, by decide⟩, by decide⟩

/-- The start of vector DR2: a sprite of one 1 bit over the lit pixel (0, 0). -/
def overLitPixel : State :=
  (((start 0xD121).setI 0x300).poke 0x300 0x80).setDisp (Display.clear.toggle 0 0)

/-- Every pixel under the 1 bits is lit before the first draw: the sprite covers (0, 0) only. -/
theorem witness_DoubleDrawRestores_lit :
    (∃ t, exec (.drw 1 2 1) overLitPixel = .next t ∧ t.getV 1 = overLitPixel.getV 1 ∧
      t.getV 2 = overLitPixel.getV 2) ∧
    overLitPixel.SpriteCovers 1 2 1 0 0 ∧
    ∀ px py, overLitPixel.SpriteCovers 1 2 1 px py → overLitPixel.disp.pixel px py = true :=
  ⟨⟨_, rfl, by decide, by decide⟩, ⟨0, 0, by decide⟩, fun px py ⟨r, c, hr, hc, hb, hx, hy⟩ => by
    have hr0 : r = 0 := by have : r < 1 := hr; omega
    subst hr0
    rw [show overLitPixel.spriteRow 0 = 0x80 by decide] at hb
    have hc0 : c = 0 := by interval_cases c <;> revert hb <;> decide
    subst hc0
    rw [show px = 0 from Fin.ext hx, show py = 0 from Fin.ext hy]
    decide⟩

/-- Vectors DR2 and then DR1: the first draw turns (0, 0) off with VF = 1, and the second lights it on a
display clear before it with VF = 0 (log entry 18). -/
theorem test_drw_twice_over_lit :
    (match exec (.drw 1 2 1) overLitPixel with
     | .next t =>
       match exec (.drw 1 2 1) t with
       | .next u => (t.disp.pixel 0 0, t.getV vf, u.disp.pixel 0 0, u.getV vf)
       | _ => (true, 0, false, 1)
     | _ => (true, 0, false, 1)) = (false, 1, true, 0) := by decide
/-- A dark display and a sprite with a 1 bit, glyph 0; and a sprite without one. -/
theorem witness_DoubleDrawRestores_dark :
    (∀ px py, State.reset.SpriteCovers 1 2 1 px py → State.reset.disp.pixel px py = false) ∧
    (0 < (1 : Fin 16).val ∧ State.reset.spriteRow 0 ≠ 0) ∧
    ∀ r, r < (1 : Fin 16).val → (State.reset.setI 0x300).spriteRow r = 0 :=
  ⟨fun px py _ => pixel_clear px py, by decide, fun r hr => by
    have h : r = 0 := by have : r < 1 := hr; omega
    subst h
    decide⟩

theorem witness_KeyWaitStartsAndEnds :
    (State.reset.setRun (.waitingForKey 15)).KeyCompletes 0 true 15 := ⟨rfl, rfl, by decide⟩
/-- A completed wait, a key held already, and the first refused index. -/
theorem witness_KeyStateChanges :
    (State.reset.setRun (.waitingForKey 3)).KeyCompletes 15 true 3 ∧
    (∀ x, ¬ ((State.reset.setRun (.waitingForKey 3)).setKey 15 true).KeyCompletes 15 true x) ∧
    16 ≤ 16 :=
  ⟨⟨rfl, rfl, by decide⟩, fun x ⟨_, _, h⟩ => absurd h (by decide), Nat.le_refl 16⟩

/-- Writes from the first address of the program area on. -/
theorem writable_of_le {a n : Nat} (h : 0x200 ≤ a) (hn : a + n ≤ 4096) (s : State) :
    ∀ k, k < n → s.Writable (a + k) := fun k hk =>
  ⟨.inl (show a + k < 4096 by omega), .inl (by rw [Nat.mod_eq_of_lt (by omega)]; omega)⟩

/-- Under LOW_WRITE_POLICY = fault no address below 0x200 is writable. -/
theorem not_writable {s : State} {a : Nat} (h : s.cfg.lowWritePolicy = .fault) (ha : a < 0x200) :
    ¬ s.Writable a := by
  rintro ⟨-, h1 | h1⟩
  · rw [Nat.mod_eq_of_lt (by omega)] at h1; omega
  · rw [h] at h1; cases h1

/-- The lowest and the highest complete BCD store, and a fault on the first byte. -/
theorem witness_BcdStoresDigits : State.reset.MemCanonical ∧
    (∀ k, k < 3 → (State.reset.setI 0x200).Writable (0x200 + k)) ∧
    (∀ k, k < 3 → (State.reset.setI 0xFFD).Writable (0xFFD + k)) ∧
    ((start 0xF033).setI 0x1FF).Executes 0xF033 (.ldBVx 0) ∧
    ((start 0xF033).setI 0x1FF).FirstUnwritable 0x1FF 3 0 :=
  ⟨rfl, writable_of_le (by decide) (by decide) _, writable_of_le (by decide) (by decide) _,
   ⟨rfl, rfl, by decide⟩, by decide, fun j hj => absurd hj (Nat.not_lt_zero j),
   not_writable rfl (by decide)⟩
/-- The longest store at both ends of the program area, and a fault on the byte past the end. -/
theorem witness_BlockStoreCopiesRegisters : State.reset.MemCanonical ∧
    (∀ k, k < (15 : Reg).val + 1 → (State.reset.setI 0x200).Writable (0x200 + k)) ∧
    (∀ k, k < (15 : Reg).val + 1 → (State.reset.setI 0xFF0).Writable (0xFF0 + k)) ∧
    ((start 0xF155).setI 0xFFF).Executes 0xF155 (.ldMemVx 1) ∧
    ((start 0xF155).setI 0xFFF).FirstUnwritable 0xFFF 2 1 :=
  ⟨rfl, writable_of_le (by decide) (by decide) _, writable_of_le (by decide) (by decide) _,
   ⟨rfl, rfl, by decide⟩, by decide,
   fun j hj => ⟨.inl (show 0xFFF + j < 4096 by omega), .inl (by
     have : j = 0 := by omega
     subst this; decide)⟩,
   fun h => not_readable rfl (by decide) h.1⟩
/-- The longest load at both ends of the store, and a fault on the byte past the end. -/
theorem witness_BlockLoadCopiesMemory :
    (∀ k, k < (15 : Reg).val + 1 → (State.reset.setI 0x000).Readable (0x000 + k)) ∧
    (∀ k, k < (15 : Reg).val + 1 → (State.reset.setI 0xFF0).Readable (0xFF0 + k)) ∧
    ((start 0xF165).setI 0xFFF).Executes 0xF165 (.ldVxMem 1) ∧
    ((start 0xF165).setI 0xFFF).FirstUnreadable 0xFFF 2 1 :=
  ⟨fun k hk => .inl (show 0 + k < 4096 from by have : k < 16 := hk; omega),
   fun k hk => .inl (show 0xFF0 + k < 4096 from by have : k < 16 := hk; omega),
   ⟨rfl, rfl, by decide⟩, by decide, fun j hj => .inl (show 0xFFF + j < 4096 by omega),
   not_readable rfl (by decide)⟩

theorem witness_FaultsArePrecise : (start 0x5001).run = .running ∧
    step (start 0x5001) = .next (after (start 0x5001)) ∧
    (after (start 0x5001)).run = .faulted someFault :=
  ⟨rfl, step_eq_after (by decide), by decide⟩
theorem witness_StepChangesRunState : (start 0xF30A).run = .running ∧
    step (start 0xF30A) = .next (after (start 0xF30A)) ∧
    (after (start 0xF30A)).run = .waitingForKey 3 ∧
    (State.reset.setRun (.waitingForKey 3)).run ≠ .running :=
  ⟨rfl, step_eq_after (by decide), by decide, by decide⟩
theorem witness_PcAfterStep :
    step (start 0x3000) = .next (after (start 0x3000)) ∧
    (start 0x3000).Executes 0x3000 (.seByte 0 0) ∧ (after (start 0x3000)).run = .running :=
  ⟨step_eq_after (by decide), ⟨rfl, rfl, by decide⟩, by decide⟩
theorem witness_VfWriters :
    step (start 0x6FAB) = .next (after (start 0x6FAB)) ∧
    (after (start 0x6FAB)).getV vf ≠ (start 0x6FAB).getV vf :=
  ⟨step_eq_after (by decide), by decide⟩
theorem witness_AddressRegisterWriters :
    step (start 0xA001) = .next (after (start 0xA001)) ∧
    (after (start 0xA001)).I ≠ (start 0xA001).I := ⟨step_eq_after (by decide), by decide⟩
theorem witness_StackWriters :
    step (start 0x2400) = .next (after (start 0x2400)) ∧
    (after (start 0x2400)).stack ≠ (start 0x2400).stack ∧
    (after (start 0x2400)).sp ≠ (start 0x2400).sp :=
  ⟨step_eq_after (by decide), by decide, by decide⟩
/-- FX2 and FX3. -/
theorem witness_TimersChangeOnlyByWrites :
    (let s := (start 0xF115).setV 1 7
     step s = .next (after s) ∧ (after s).dt ≠ s.dt) ∧
    (let s := (start 0xF118).setV 1 7
     step s = .next (after s) ∧ (after s).st ≠ s.st) :=
  ⟨⟨step_eq_after (by decide), by decide⟩, step_eq_after (by decide), by decide⟩
/-- A step and a reset that each change the display. -/
theorem witness_DisplayWriters :
    (let s := (start 0x00E0).setDisp (Display.clear.toggle 0 0)
     s.perform .step = .next (after s, .outcome (.ok 0x202 true false)) ∧ (after s).disp ≠ s.disp ∧
     s.perform .reset = .next (s.resetAgain, .none) ∧ s.resetAgain.disp ≠ s.disp) :=
  ⟨by simp only [State.perform, State.stepReply,
        step_eq_after (s := (start 0x00E0).setDisp (Display.clear.toggle 0 0)) (by decide)]
      exact congrArg (fun o => Host.Outcome.next (_, Reply.outcome o)) (by decide),
   by decide, rfl, by decide⟩
/-- `s` with CYCLES_PER_TICK = 2. -/
def withTicks (s : State) : State := { s with cfg := { s.cfg with cyclesPerTick := some 2 } }

/-- A run of one step that changes the display: it executes CLS after its first 0 steps. -/
theorem witness_DisplayWriters_run :
    (let s := withTicks ((start 0x00E0).setDisp (Display.clear.toggle 0 0))
     s.perform (.runFor 1) = .next ((s.runFor 1).1, .outcome (s.runFor 1).2) ∧
     (s.runFor 1).1.disp ≠ s.disp ∧ (s.runFor 0).1.Executes 0x00E0 .cls) :=
  ⟨rfl, by decide, rfl, rfl, by decide⟩
theorem witness_KeysAndParametersAreTheHosts :
    State.reset.perform (.setKeyState 7 true) = .next (State.reset.setKey 7 true, .none) ∧
    (State.reset.setKey 7 true).key ≠ State.reset.key :=
  ⟨rfl, by decide⟩
theorem witness_MemoryWriters :
    (let s := ((start 0xF055).setI 0x300).setV 0 1
     step s = .next (after s) ∧ (after s).mem ≠ s.mem) := ⟨step_eq_after (by decide), by decide⟩
theorem witness_ReservedRegionStays : (start 0xF055).cfg.lowWritePolicy = .fault ∧
    step ((start 0xF055).setI 0x1FF) = .next (after ((start 0xF055).setI 0x1FF)) ∧ 0x1FF < 0x200 :=
  ⟨rfl, step_eq_after (by decide), by decide⟩

/-- A canonical memory that lists bytes, before and after a step that stores. -/
theorem witness_StepKeepsMemoryCanonical :
    (let s := ((start 0xF055).setI 0x300).setV 0 1
     Memory.wf s.cfg.fontBase s.mem = true ∧ step s = .next (after s)) :=
  ⟨by decide, step_eq_after (by decide)⟩
theorem witness_HostKeepsMemoryCanonical : State.reset.MemCanonical ∧
    State.reset.perform (.load [0x60, 0x05])
      = .next (State.reset.setMem [(0x200, 0x60), (0x201, 0x05)], .loaded) := ⟨rfl, rfl⟩
/-- The highest target of Bnnn, 0x10FE. -/
theorem witness_StepKeepsPcInBounds : ((start 0xBFFF).setV 0 0xFF).PcInBounds ∧
    (after ((start 0xBFFF).setV 0 0xFF)).pc = 0x10FE :=
  ⟨fun _ => ⟨by decide, by decide⟩, by decide⟩

theorem witness_TickDecrementsTimers :
    (State.reset.setRun (.faulted someFault)).run = .faulted someFault ∧
    ∀ f, State.reset.run ≠ .faulted f := ⟨rfl, fun _ h => by cases h⟩
/-- The longest image that fits and the shortest that does not. -/
theorem witness_LoadCopiesImage : (List.replicate 3585 (0 : Byte)).length > 3584 ∧
    (List.replicate 3584 (0 : Byte)).length ≤ 3584 ∧ State.reset.MemCanonical :=
  ⟨by rw [List.length_replicate]; decide, by rw [List.length_replicate], rfl⟩
/-- A machine that is not Running, a run of two steps that ends Running, a step that does not fault and
one that does; and a count that is due for a tick and one that is not. -/
theorem witness_RunForCountsSteps :
    (State.reset.setRun (.waitingForKey 0)).run ≠ .running ∧
    ((withTicks State.reset).runFor 2).1.run = .running ∧
    (step State.reset = .next (after State.reset) ∧ (after State.reset).run = .running) ∧
    (step (start 0x5001) = .next (after (start 0x5001)) ∧
      (after (start 0x5001)).run = .faulted someFault) ∧
    2 % (withTicks State.reset).cfg.ticksEvery = 0 ∧ 1 % (withTicks State.reset).cfg.ticksEvery ≠ 0 :=
  ⟨by decide, by decide, ⟨step_eq_after (by decide), by decide⟩,
   ⟨step_eq_after (by decide), by decide⟩, by decide, by decide⟩
/-- A first run that ends Running, and one that does not. -/
theorem witness_RunForSplits : ((withTicks State.reset).runFor 2).1.run = .running ∧
    ((start 0x5001).runFor 3).1.run ≠ .running := by decide

end Sys2Proof.Machine.Tests
end

section
/-! The state's fields and who may write them (10_state.md): one frame rule per update, the parts each
instruction may write, and the statements of that family. -/

namespace Sys2Proof.Machine

/-! ## Frames of the updates -/

/-- Frames compose, and their parts add up. -/
theorem Frame.trans {ps qs : List Part} {s t u : State} (h : Frame ps s t) (h' : Frame qs t u) :
    Frame (ps ++ qs) s u := by
  have hsplit : ∀ {p : Part}, p ∉ ps ++ qs → p ∉ ps ∧ p ∉ qs := by
    intro p hp
    simpa using hp
  exact {
    v := fun x hp => (h'.v x (hsplit hp).2).trans (h.v x (hsplit hp).1)
    I := fun hp => (h'.I (hsplit hp).2).trans (h.I (hsplit hp).1)
    pc := fun hp => (h'.pc (hsplit hp).2).trans (h.pc (hsplit hp).1)
    sp := fun hp => (h'.sp (hsplit hp).2).trans (h.sp (hsplit hp).1)
    stack := fun hp => (h'.stack (hsplit hp).2).trans (h.stack (hsplit hp).1)
    dt := fun hp => (h'.dt (hsplit hp).2).trans (h.dt (hsplit hp).1)
    st := fun hp => (h'.st (hsplit hp).2).trans (h.st (hsplit hp).1)
    mem := fun hp a => (h'.mem (hsplit hp).2 a).trans (h.mem (hsplit hp).1 a)
    disp := fun hp px py => (h'.disp (hsplit hp).2 px py).trans (h.disp (hsplit hp).1 px py)
    run := fun hp => (h'.run (hsplit hp).2).trans (h.run (hsplit hp).1)
    draws := fun hp => (h'.draws (hsplit hp).2).trans (h.draws (hsplit hp).1)
    key := h'.key.trans h.key
    cyc := h'.cyc.trans h.cyc
    cfg := h'.cfg.trans h.cfg }

theorem frame_refl (s : State) : Frame [] s s := by constructor <;> simp

theorem frame_setV (s : State) (x : Reg) (b : Byte) : Frame [.v x] s (s.setV x b) := by
  constructor <;> simp +contextual [State.getV_setV, eq_comm]

theorem frame_setI (s : State) (w : Word) : Frame [.I] s (s.setI w) := by constructor <;> simp

theorem frame_setPC (s : State) (w : Word) : Frame [.pc] s (s.setPC w) := by constructor <;> simp

theorem frame_setDT (s : State) (b : Byte) : Frame [.dt] s (s.setDT b) := by constructor <;> simp

theorem frame_setST (s : State) (b : Byte) : Frame [.st] s (s.setST b) := by constructor <;> simp

theorem frame_setRun (s : State) (r : RunState) : Frame [.run] s (s.setRun r) := by
  constructor <;> simp

theorem frame_setDisp (s : State) (d : Display) : Frame [.disp] s (s.setDisp d) := by
  constructor <;> simp

theorem frame_setMem (s : State) (m : Memory) : Frame [.mem] s (s.setMem m) := by
  constructor <;> simp

theorem frame_setStack (s : State) (n : Fin 17) (k : Vector Word 16) :
    Frame [.sp, .stack] s (s.setStack n k) := by
  constructor <;> simp

/-- A pop moves the depth and leaves every entry (10_state.md R24). -/
theorem frame_setStack_same (s : State) (n : Fin 17) : Frame [.sp] s (s.setStack n s.stack) := by
  constructor <;> simp

theorem frame_countDraw (s : State) : Frame [.draws] s s.countDraw := by constructor <;> simp

theorem frame_setResultAndFlag (s : State) (x : Reg) (b f : Byte) :
    Frame [.v x, .v vf] s (s.setResultAndFlag x b f) :=
  (frame_setV s x b).trans (frame_setV _ vf f)

theorem frame_skipIf (s : State) (c : Bool) : Frame [.pc] s (s.skipIf c) := by
  cases c
  · rw [skipIf_false]; constructor <;> simp
  · exact frame_setPC s _

/-- The registers a block load to V0..Vx may write. -/
def regsThrough (x : Reg) : List Part := ((List.finRange 16).filter (· ≤ x)).map Part.v

@[simp] theorem mem_regsThrough {x : Reg} {p : Part} : p ∈ regsThrough x ↔ ∃ y ≤ x, p = .v y := by
  simp [regsThrough, eq_comm]

/-- Loading x + 1 bytes from V0 on writes V0..Vx only. -/
theorem frame_loadRegs (s : State) (x : Reg) {bs : List Byte} (h : bs.length = x.val + 1) :
    Frame (regsThrough x) s (s.loadRegs 0 bs) := by
  obtain ⟨v, hv, hreg⟩ := loadRegs_eq s 0 bs
  rw [hv]
  constructor
  case v =>
    intro y hy
    have hxy : ¬ y ≤ x := fun hle => hy (mem_regsThrough.2 ⟨y, hle, rfl⟩)
    rw [hreg, dif_neg]
    rw [Fin.le_def] at hxy
    omega
  all_goals intros; rfl

/-! ## The parts an instruction may write -/

/-- The parts of the state that the execute phase of an instruction may change; a completed step of an
instruction without `Part.pc` leaves PC where the fetch put it. -/
def partsWritten : Instr → List Part
  | .sys _ => []
  | .cls => [.disp]
  | .ret => [.sp, .pc]
  | .call _ => [.sp, .stack, .pc]
  | .jp _ | .jpV0 _ | .seByte _ _ | .sneByte _ _ | .seReg _ _ | .sneReg _ _ | .skp _ | .sknp _ => [.pc]
  | .ldByte x _ | .addByte x _ | .ldReg x _ | .orReg x _ | .andReg x _ | .xorReg x _
  | .ldVxDT x => [.v x]
  | .rnd x _ => [.v x, .draws]
  | .addReg x _ | .subReg x _ | .shr x _ | .subnReg x _ | .shl x _ => [.v x, .v vf]
  | .ldI _ | .addIVx _ | .ldFVx _ => [.I]
  | .drw _ _ _ => [.disp, .v vf]
  | .ldVxK _ => [.run]
  | .ldDTVx _ => [.dt]
  | .ldSTVx _ => [.st]
  | .ldBVx _ | .ldMemVx _ => [.mem]
  | .ldVxMem x => regsThrough x

/-- A completed execute phase changes, of the state the fetch left, only the parts the instruction
lists. -/
theorem effect_frame {s t : State} {i : Instr} (h : Effect s t i) :
    Frame (partsWritten i) s.advance t := by
  cases i
  case sys => subst h; exact frame_refl _
  case cls => subst h; exact frame_setDisp _ _
  case ret =>
    obtain ⟨-, n, -, rfl⟩ := h
    exact (frame_setStack_same s.advance n).trans (frame_setPC _ _)
  case call =>
    obtain ⟨-, n, -, rfl⟩ := h
    exact (frame_setStack s.advance n _).trans (frame_setPC _ _)
  case jp | jpV0 => subst h; exact frame_setPC s.advance _
  case seByte | sneByte | seReg | sneReg | skp | sknp => subst h; exact frame_skipIf _ _
  case ldByte | addByte | ldReg | orReg | andReg | xorReg | ldVxDT =>
    obtain ⟨b, rfl⟩ := h
    exact frame_setV _ _ b
  case rnd =>
    obtain ⟨b, rfl⟩ := h
    exact (frame_setV _ _ b).trans (frame_countDraw _)
  case addReg | subReg | shr | subnReg | shl =>
    obtain ⟨b, f, rfl⟩ := h
    exact frame_setResultAndFlag _ _ b f
  case ldI | addIVx | ldFVx =>
    obtain ⟨w, rfl⟩ := h
    exact frame_setI _ w
  case drw =>
    obtain ⟨d, f, rfl⟩ := h
    exact (frame_setDisp _ d).trans (frame_setV _ _ f)
  case ldVxK => subst h; exact frame_setRun _ _
  case ldDTVx => subst h; exact frame_setDT _ _
  case ldSTVx => subst h; exact frame_setST _ _
  case ldBVx | ldMemVx =>
    obtain ⟨m, rfl, -⟩ := writeBlock_advance h
    exact frame_setMem _ m
  case ldVxMem =>
    obtain ⟨bs, hlen, rfl⟩ := h
    exact frame_loadRegs _ _ hlen

/-- What a step can change: the run state alone (an idle step or a fault), or the parts that the
executed instruction lists, after the fetch's advance. -/
theorem step_frame {s t : State} (h : step s = .next t) :
    (∃ r, t = s.setRun r) ∨ ∃ w i, s.Executes w i ∧ Frame (partsWritten i) s.advance t := by
  obtain ⟨-, rfl⟩ | ⟨-, -, k, w, m, rfl⟩ | ⟨w, i, hex, he⟩ := step_cases h
  · exact Or.inl ⟨_, rfl⟩
  · exact Or.inl ⟨_, rfl⟩
  · obtain ⟨k, m, rfl⟩ | heff := exec_cases he
    · exact Or.inl ⟨_, rfl⟩
    · exact Or.inr ⟨w, i, hex, effect_frame heff⟩

/-- The keys and the parameters are the same after every step. -/
theorem step_key_cfg {s t : State} (h : step s = .next t) : t.key = s.key ∧ t.cfg = s.cfg := by
  obtain ⟨r, rfl⟩ | ⟨w, i, -, hf⟩ := step_frame h
  · exact ⟨rfl, rfl⟩
  · exact ⟨hf.key, hf.cfg⟩

/-! ## The writers of one part -/

theorem vf_mem_partsWritten {i : Instr} (h : Part.v vf ∈ partsWritten i) :
    (∃ x y, i = .addReg x y ∨ i = .subReg x y ∨ i = .shr x y ∨ i = .subnReg x y ∨ i = .shl x y) ∨
    (∃ x y n, i = .drw x y n) ∨
    (∃ kk, i = .ldByte vf kk ∨ i = .addByte vf kk ∨ i = .rnd vf kk) ∨
    (∃ y, i = .ldReg vf y ∨ i = .orReg vf y ∨ i = .andReg vf y ∨ i = .xorReg vf y) ∨
    i = .ldVxDT vf ∨ i = .ldVxMem vf := by
  cases i
  case ldVxMem x =>
    obtain ⟨y, hle, hy⟩ := mem_regsThrough.1 h
    obtain rfl := Part.v.inj hy
    obtain rfl : vf = x := Fin.le_antisymm hle (Fin.le_last x)
    simp
  all_goals simp_all [partsWritten]

theorem I_mem_partsWritten {i : Instr} (h : Part.I ∈ partsWritten i) :
    (∃ nnn, i = .ldI nnn) ∨ ∃ x, i = .addIVx x ∨ i = .ldFVx x := by
  cases i <;> simp_all [partsWritten]

theorem stack_mem_partsWritten {i : Instr} (h : Part.stack ∈ partsWritten i) : ∃ nnn, i = .call nnn := by
  cases i <;> simp_all [partsWritten]

theorem sp_mem_partsWritten {i : Instr} (h : Part.sp ∈ partsWritten i) :
    i = .ret ∨ ∃ nnn, i = .call nnn := by
  cases i <;> simp_all [partsWritten]

theorem disp_mem_partsWritten {i : Instr} (h : Part.disp ∈ partsWritten i) :
    i = .cls ∨ ∃ x y n, i = .drw x y n := by
  cases i <;> simp_all [partsWritten]

theorem run_mem_partsWritten {i : Instr} (h : Part.run ∈ partsWritten i) : ∃ x, i = .ldVxK x := by
  cases i <;> simp_all [partsWritten]

/-! ## Where a step leaves PC -/

/-- A completed execute phase never faults: it runs on, or waits after Fx0A. -/
theorem effect_not_faulted {s t : State} {i : Instr} (hr : s.run = .running) (h : Effect s t i)
    (f : FaultRecord) : t.run ≠ .faulted f := by
  intro ht
  by_cases hp : Part.run ∈ partsWritten i
  · obtain ⟨x, rfl⟩ := run_mem_partsWritten hp
    simp only [Effect] at h
    subst h
    cases ht
  · rw [(effect_frame h).run hp] at ht
    rw [show s.advance.run = s.run from rfl, hr] at ht
    cases ht

/-- A step that ends in a fault did not move PC. -/
theorem step_pc_of_faulted {s t : State} {f : FaultRecord} (h : step s = .next t)
    (hf : t.run = .faulted f) : t.pc = s.pc := by
  obtain ⟨-, rfl⟩ | ⟨-, -, k, w, m, rfl⟩ | ⟨w, i, hex, he⟩ := step_cases h
  · rfl
  · rfl
  · obtain ⟨k, m, rfl⟩ | heff := exec_cases he
    · rfl
    · exact absurd hf (effect_not_faulted hex.1 heff f)

/-- A skip leaves PC two words or one word after the address of the instruction. -/
theorem advance_skipIf_pc (s : State) (c : Bool) :
    (s.advance.skipIf c).pc = if c = true then s.pc + 4 else s.pc + 2 := by
  cases c
  · rfl
  · exact BitVec.add_assoc s.pc 2 2

/-- An instruction that does not list PC leaves it after the fetched word. -/
theorem effect_pc_of_not_mem {s t : State} {i : Instr} (h : Effect s t i)
    (hp : Part.pc ∉ partsWritten i) :
    t.pc = s.pc + 2 :=
  (effect_frame h).pc hp

/-- Settles O42: an idle or faulting step keeps PC, and a completed one puts it where the effect of the
executed instruction says. -/
theorem pcAfterStep : Obligations.PcAfterStep := by
  intro s t h
  refine ⟨fun hr => ?_, fun f hf => step_pc_of_faulted h hf, fun w i hex hnf => ?_⟩
  · obtain ⟨-, rfl⟩ | ⟨hr', -⟩ | ⟨w, i, hex, -⟩ := step_cases h
    · rfl
    · exact absurd hr' hr
    · exact absurd hex.1 hr
  · rw [step_of_executes hex] at h
    obtain ⟨k, m, rfl⟩ | heff := exec_cases h
    · exact absurd rfl (hnf _)
    · cases i
      case ret => obtain ⟨-, n, -, rfl⟩ := heff; rfl
      case call => obtain ⟨-, n, -, rfl⟩ := heff; rfl
      case jp | jpV0 => subst heff; rfl
      case seByte | seReg | sneByte | sneReg | skp =>
        subst heff
        simp [advance_skipIf_pc]
      case sknp x =>
        subst heff
        refine (advance_skipIf_pc s _).trans ?_
        cases s.keyNamedBy x <;> rfl
      all_goals exact effect_pc_of_not_mem heff (by simp [partsWritten])

/-! ## Writers in a step -/

/-- Settles O43, by the parts each instruction lists. -/
theorem vfWriters : Obligations.VfWriters := by
  intro s t h hne
  obtain ⟨r, rfl⟩ | ⟨w, i, hex, hf⟩ := step_frame h
  · exact absurd rfl hne
  · exact ⟨w, i, hex, vf_mem_partsWritten (not_imp_comm.1 (hf.v vf) hne)⟩

/-- Settles O44, by the parts each instruction lists. -/
theorem addressRegisterWriters : Obligations.AddressRegisterWriters := by
  intro s t h hne
  obtain ⟨r, rfl⟩ | ⟨w, i, hex, hf⟩ := step_frame h
  · exact absurd rfl hne
  · exact ⟨w, i, hex, I_mem_partsWritten (not_imp_comm.1 hf.I hne)⟩

/-- Settles O45, by the parts each instruction lists. -/
theorem stackWriters : Obligations.StackWriters := by
  intro s t h
  obtain ⟨r, rfl⟩ | ⟨w, i, hex, hf⟩ := step_frame h
  · exact ⟨fun hne => absurd rfl hne, fun hne => absurd rfl hne⟩
  · refine ⟨fun hne => ?_, fun hne => ?_⟩
    · obtain ⟨nnn, rfl⟩ := stack_mem_partsWritten (not_imp_comm.1 hf.stack hne)
      exact ⟨w, nnn, hex⟩
    · obtain rfl | ⟨nnn, rfl⟩ := sp_mem_partsWritten (not_imp_comm.1 hf.sp hne)
      · exact ⟨w, .inl hex⟩
      · exact ⟨w, .inr ⟨nnn, hex⟩⟩

/-- The next step executes 00E0 or Dxyn, the two instructions that write the display. -/
def State.ExecutesDraw (s : State) : Prop :=
  ∃ w, s.Executes w .cls ∨ ∃ x y n, s.Executes w (.drw x y n)

/-- Displays with equal pixels are equal. -/
theorem Display.ext_pixel {d e : Display} (h : ∀ px py, d.pixel px py = e.pixel px py) : d = e :=
  Vector.ext fun px hx => Vector.ext fun py hy => h ⟨px, hx⟩ ⟨py, hy⟩

/-- A step that changes the display executed CLS or DRW. -/
theorem executesDraw_of_step_disp {s t : State} (h : step s = .next t) (hne : t.disp ≠ s.disp) :
    s.ExecutesDraw := by
  obtain ⟨r, rfl⟩ | ⟨w, i, hex, hf⟩ := step_frame h
  · exact absurd rfl hne
  · have hp : Part.disp ∈ partsWritten i := by
      by_contra hp
      exact hne (Display.ext_pixel (hf.disp hp))
    obtain rfl | ⟨x, y, n, rfl⟩ := disp_mem_partsWritten hp
    · exact ⟨w, .inl hex⟩
    · exact ⟨w, .inr ⟨x, y, n, hex⟩⟩

/-! ## `run_for` step by step -/

/-- The execute phase of every instruction answers a next state. -/
theorem exec_answers (i : Instr) (s : State) : ∃ t, exec i s = .next t := by
  cases i
  case ret => simp only [exec, execRet]; split <;> exact ⟨_, rfl⟩
  case call => simp only [exec, execCall]; split <;> exact ⟨_, rfl⟩
  case drw => simp only [exec, execDrw]; split <;> exact ⟨_, rfl⟩
  case ldBVx => simp only [exec, execLdBVx]; split <;> exact ⟨_, rfl⟩
  case ldMemVx => simp only [exec, execLdMemVx]; split <;> exact ⟨_, rfl⟩
  case ldVxMem => simp only [exec, execLdVxMem]; split <;> exact ⟨_, rfl⟩
  all_goals exact ⟨_, rfl⟩

/-- Every step answers a next state. -/
theorem step_answers (s : State) : ∃ t, step s = .next t := by
  simp only [step, State.cycle, State.runCycle]
  split
  · split
    · exact ⟨_, rfl⟩
    · split
      · exact ⟨_, rfl⟩
      · exact exec_answers _ _
  · exact ⟨_, rfl⟩
  · exact ⟨_, rfl⟩

/-- A loop whose step faults ends in that step's state. -/
theorem runLoop_succ_of_faulted {s t : State} (o : StepOutcome) (n : Nat) (hr : s.run = .running)
    (hs : step s = .next t) {f : FaultRecord} (hf : t.run = .faulted f) :
    s.runLoop o (n + 1) = (t, .fault f) := by
  simp only [State.runLoop, hr, hs, State.outcome, hf]

/-- A loop whose step does not fault counts the step and goes on. -/
theorem runLoop_succ_of_not_faulted {s t : State} (o : StepOutcome) (n : Nat) (hr : s.run = .running)
    (hs : step s = .next t) (hf : ∀ f, t.run ≠ .faulted f) :
    s.runLoop o (n + 1) = t.countStep.runLoop (t.outcome s.stepDirty) n :=
  (runLoop_succ o n hr hs).resolve_left fun ⟨f, hf', _⟩ => hf f hf'

@[simp] theorem countStep_disp (s : State) : s.countStep.disp = s.disp := by
  obtain ⟨d, e, h⟩ := countStep_eq s
  rw [h]

@[simp] theorem countStep_key (s : State) : s.countStep.key = s.key := by
  obtain ⟨d, e, h⟩ := countStep_eq s
  rw [h]

@[simp] theorem countStep_cfg (s : State) : s.countStep.cfg = s.cfg := by
  obtain ⟨d, e, h⟩ := countStep_eq s
  rw [h]

/-- If a property that the scheduler's count keeps holds before a run and fails after it, some step of
the run, the one after its first `m`, breaks it. -/
theorem runLoop_breaking_step {P : State → Prop} (hcount : ∀ u, P u → P u.countStep) {s : State}
    {o : StepOutcome} {n : Nat} (h : P s) (hn : ¬ P (s.runLoop o n).1) :
    ∃ m < n, ∃ t, step (s.runLoop o m).1 = .next t ∧ P (s.runLoop o m).1 ∧ ¬ P t := by
  induction n generalizing s o with
  | zero => exact absurd h hn
  | succ n ih =>
    by_cases hr : s.run = .running
    · obtain ⟨t, ht⟩ := step_answers s
      by_cases hP : P t
      · by_cases hf : ∃ f, t.run = .faulted f
        · obtain ⟨f, hf⟩ := hf
          rw [runLoop_succ_of_faulted o n hr ht hf] at hn
          exact absurd hP hn
        · rw [not_exists] at hf
          rw [runLoop_succ_of_not_faulted o n hr ht hf] at hn
          obtain ⟨m, hm, hstep⟩ := ih (hcount t hP) hn
          rw [← runLoop_succ_of_not_faulted o m hr ht hf] at hstep
          exact ⟨m + 1, Nat.succ_lt_succ hm, hstep⟩
      · exact ⟨0, Nat.succ_pos n, t, ht, h, hP⟩
    · rw [runLoop_of_not_running o _ hr] at hn
      exact absurd h hn

/-- A run that changes the display has a step that draws. -/
theorem executesDraw_of_runFor_disp {s : State} {n : Nat} (hne : (s.runFor n).1.disp ≠ s.disp) :
    ∃ m < n, (s.runFor m).1.ExecutesDraw := by
  obtain ⟨m, hm, t, ht, hsame, hnew⟩ := runLoop_breaking_step (P := fun u => u.disp = s.disp)
    (fun u hu => (countStep_disp u).trans hu) rfl hne
  exact ⟨m, hm, executesDraw_of_step_disp ht (hsame ▸ hnew)⟩

/-- `run_for` keeps the keys and the parameters. -/
theorem runFor_key_cfg (s : State) (n : Nat) :
    (s.runFor n).1.key = s.key ∧ (s.runFor n).1.cfg = s.cfg := by
  by_contra hne
  obtain ⟨m, -, t, ht, ⟨hkey, hcfg⟩, hnew⟩ :=
    runLoop_breaking_step (P := fun u => u.key = s.key ∧ u.cfg = s.cfg)
      (fun u hu => ⟨(countStep_key u).trans hu.1, (countStep_cfg u).trans hu.2⟩) ⟨rfl, rfl⟩ hne
  obtain ⟨hkey', hcfg'⟩ := step_key_cfg ht
  exact hnew ⟨hkey'.trans hkey, hcfg'.trans hcfg⟩

/-! ## The operations of the interface -/

/-- What an operation may do to the state: `step` and `run_for` exactly, the others as far as the parts
they change. -/
def HostEffect (s t : State) : Request → Prop
  | .step => step s = .next t
  | .runFor n => t = (s.runFor n).1
  | .tick => ∃ d e, t = { s with dt := d, st := e }
  | .reset => t = s.resetAgain
  | .load bytes => t = s ∨ t = s.setMem (s.mem.writeAll s.cfg.fontBase origin bytes)
  | .setKeyState _ _ => ∃ v k r, t = { s with v := v, key := k, run := r }
  | .display | .soundActive | .dump => t = s

/-- `set_key_state` changes the keys, a register and the run state only. -/
theorem setKeyState_eq {s t : State} {k : Nat} {p : Bool} (h : s.setKeyState k p = .next t) :
    ∃ v ks r, t = { s with v := v, key := ks, run := r } := by
  unfold State.setKeyState at h
  split at h
  · next hk =>
    obtain ⟨v, r, hkc⟩ := keyChanged_eq (s.setKey ⟨k, hk⟩ p) ⟨k, hk⟩ s.key[k] p
    rw [hkc, Host.Outcome.next.injEq] at h
    exact ⟨v, _, r, h.symm⟩
  · cases h

/-- What each operation of the interface can do. -/
theorem perform_effect {s t : State} {q : Request} {r : Reply} (h : s.perform q = .next (t, r)) :
    HostEffect s t q := by
  cases q
  case step =>
    obtain ⟨u, hu⟩ := step_answers s
    simp only [State.perform, State.stepReply, hu, Host.Outcome.next.injEq, Prod.mk.injEq] at h
    exact h.1 ▸ hu
  case setKeyState k p =>
    simp only [State.perform, State.keyReply] at h
    split at h
    · next hk =>
      simp only [Host.Outcome.next.injEq, Prod.mk.injEq] at h
      exact setKeyState_eq (h.1 ▸ hk)
    · cases h
    · cases h
  case load bytes =>
    simp only [State.perform, State.loadReply, Host.Outcome.next.injEq] at h
    split at h
    · exact Or.inl (Prod.mk.inj h).1.symm
    · next hl => exact Or.inr ((Prod.mk.inj h).1.symm.trans (load_cases hl).2)
  case tick =>
    obtain ⟨d, e, ht⟩ := tick_eq s
    simp only [State.perform, ht, Host.Outcome.next.injEq, Prod.mk.injEq] at h
    exact ⟨d, e, h.1.symm⟩
  case runFor | reset | display | soundActive | dump =>
    exact (Prod.mk.inj (Host.Outcome.next.inj h)).1.symm

/-- Settles O47: the views, `tick`, `load` and the keys leave the display; a step that changes it drew;
and a run that changes it has a step that does. -/
theorem displayWriters : Obligations.DisplayWriters := by
  intro s t q r h hne
  have he := perform_effect h
  cases q
  case step => exact .inr (.inl ⟨rfl, executesDraw_of_step_disp he hne⟩)
  case reset => exact .inl rfl
  case runFor n =>
    obtain rfl : t = _ := he
    obtain ⟨m, hm, hdraw⟩ := executesDraw_of_runFor_disp hne
    exact .inr (.inr ⟨n, m, rfl, hm, hdraw⟩)
  case tick => obtain ⟨d, e, rfl⟩ := he; exact absurd rfl hne
  case load => obtain rfl | rfl := he <;> exact absurd rfl hne
  case setKeyState => obtain ⟨v, k, u, rfl⟩ := he; exact absurd rfl hne
  case display | soundActive | dump => subst he; exact absurd rfl hne

/-- Settles O48: of the operations only `reset` and `set_key_state` write the keys, and none writes the
parameters. -/
theorem keysAndParametersAreTheHosts : Obligations.KeysAndParametersAreTheHosts := by
  intro s t q r h
  have he := perform_effect h
  cases q
  case step =>
    obtain ⟨hkey, hcfg⟩ := step_key_cfg he
    exact ⟨hcfg, fun hne => absurd hkey hne⟩
  case runFor n =>
    obtain rfl : t = _ := he
    obtain ⟨hkey, hcfg⟩ := runFor_key_cfg s n
    exact ⟨hcfg, fun hne => absurd hkey hne⟩
  case reset => obtain rfl : t = _ := he; exact ⟨rfl, fun _ => .inl rfl⟩
  case setKeyState k p => obtain ⟨v, ks, u, rfl⟩ := he; exact ⟨rfl, fun _ => .inr ⟨k, p, rfl⟩⟩
  case tick => obtain ⟨d, e, rfl⟩ := he; exact ⟨rfl, fun hne => absurd rfl hne⟩
  case load => obtain rfl | rfl := he <;> exact ⟨rfl, fun hne => absurd rfl hne⟩
  case display | soundActive | dump => subst he; exact ⟨rfl, fun hne => absurd rfl hne⟩

/-! ## Reset -/

/-- Settles O54: the reset memory lists no byte, PC is 0x200 and every stack entry 0. -/
theorem resetMeetsInvariants : Obligations.ResetMeetsInvariants :=
  ⟨rfl, fun _ => ⟨by decide, fun j => by simp [State.reset]⟩⟩

end Sys2Proof.Machine
end

section
/-! Memory (20_memory.md): what a step can do to the stored bytes, said once, and the statements of
that family. -/

namespace Sys2Proof.Machine

/-! ## Fetch -/

/-- Settles O7: the word of the two bytes read, as a number. -/
theorem fetchIsBigEndian : Obligations.FetchIsBigEndian := fun _ h₀ h₁ =>
  ⟨_, fetch_of_readable h₀ h₁, toNat_wordOfBytes _ _⟩

/-! ## What a step does to memory -/

@[simp] theorem skipIf_mem (s : State) (c : Bool) : (s.skipIf c).mem = s.mem := by
  cases c <;> rfl

@[simp] theorem loadRegs_mem (s : State) (k : Nat) (bs : List Byte) :
    (s.loadRegs k bs).mem = s.mem := by
  obtain ⟨v, h, -⟩ := loadRegs_eq s k bs
  rw [h]

/-- A completed execute phase keeps memory as data, or it is a completed block write at I of Fx33 or
Fx55 (20_memory.md R50). -/
theorem effect_mem_cases {s t : State} {i : Instr} (h : Effect s t i) :
    t.mem = s.mem ∨ ∃ x bs, (i = .ldBVx x ∨ i = .ldMemVx x) ∧
      s.advance.writeBlock s.I.toNat bs = .ok t := by
  cases i
  case ldBVx x => exact .inr ⟨x, _, .inl rfl, h⟩
  case ldMemVx x => exact .inr ⟨x, _, .inr rfl, h⟩
  case ret | call => obtain ⟨-, n, -, rfl⟩ := h; exact .inl rfl
  case seByte | sneByte | seReg | sneReg | skp | sknp => subst h; exact .inl (skipIf_mem _ _)
  case ldVxMem => obtain ⟨bs, -, rfl⟩ := h; exact .inl (loadRegs_mem _ _ _)
  case addReg | subReg | shr | subnReg | shl | drw => obtain ⟨b, f, rfl⟩ := h; exact .inl rfl
  case ldByte | addByte | ldReg | orReg | andReg | xorReg | ldVxDT | rnd | ldI | addIVx | ldFVx =>
    obtain ⟨b, rfl⟩ := h; exact .inl rfl
  case sys | cls | jp | jpV0 | ldVxK | ldDTVx | ldSTVx => subst h; exact .inl rfl

/-- What a step can do to memory: keep it as data, or complete the block write of Fx33 or Fx55. -/
theorem step_mem_cases {s t : State} (h : step s = .next t) :
    t.mem = s.mem ∨ ∃ w x bs, (s.Executes w (.ldBVx x) ∨ s.Executes w (.ldMemVx x)) ∧
      s.advance.writeBlock s.I.toNat bs = .ok t := by
  obtain ⟨-, rfl⟩ | ⟨-, -, k, w, m, rfl⟩ | ⟨w, i, hex, he⟩ := step_cases h
  · exact .inl rfl
  · exact .inl rfl
  · obtain ⟨k, m, rfl⟩ | heff := exec_cases he
    · exact .inl rfl
    · obtain hmem | ⟨x, bs, rfl | rfl, hw⟩ := effect_mem_cases heff
      · exact .inl hmem
      · exact .inr ⟨w, x, bs, .inl hex, hw⟩
      · exact .inr ⟨w, x, bs, .inr hex, hw⟩

/-- A block write completes only when every address of the block is writable. -/
theorem writable_of_writeBlock {s t : State} {addr : Nat} {bs : List Byte}
    (h : s.writeBlock addr bs = .ok t) : ∀ j, j < bs.length → s.Writable (addr + j) := by
  obtain hw | ⟨k, hk⟩ := writable_or_first s addr bs.length
  · exact hw
  · obtain ⟨r, hr, -⟩ := writeBlock_of_firstUnwritable hk
    rw [hr] at h
    cases h

/-- Under LOW_WRITE_POLICY = fault a writable address names a byte of the store at 0x200 or above, also
where ADDR_POLICY = wrap reduces it (20_memory.md R48). -/
theorem origin_le_of_writable {s : State} {addr : Nat} (hp : s.cfg.lowWritePolicy = .fault)
    (h : s.Writable addr) : 0x200 ≤ addr % 4096 := by
  refine h.2.resolve_right fun ha => ?_
  rw [hp] at ha
  cases ha

/-! ## The statements on steps -/

/-- Settles O51: memory kept as data stays canonical, and so does memory after a completed block
write. -/
theorem stepKeepsMemoryCanonical : Obligations.StepKeepsMemoryCanonical := by
  intro s t hm h
  obtain hmem | ⟨w, x, bs, -, hw⟩ := step_mem_cases h
  · rwa [State.MemCanonical, hmem, (step_key_cfg h).2]
  · obtain ⟨m, -, hkeep, -⟩ := writeBlock_advance hw
    exact hkeep hm

/-- Settles O49: only the block writes of Fx33 and Fx55 change memory. -/
theorem memoryWriters : Obligations.MemoryWriters := by
  intro s t h hne
  obtain hmem | ⟨w, x, bs, hex, -⟩ := step_mem_cases h
  · exact absurd hmem hne
  · exact ⟨w, x, hex⟩

/-- Settles O50: a completed block write has every byte of its block at 0x200 or above, and leaves the
bytes outside the block. -/
theorem reservedRegionStays : Obligations.ReservedRegionStays := by
  intro s t hp h a ha
  obtain hmem | ⟨w, x, bs, -, hw⟩ := step_mem_cases h
  · rw [State.peek, State.peek, hmem, (step_key_cfg h).2]
  · obtain ⟨m, -, -, hframe⟩ := writeBlock_advance hw
    refine hframe a fun j hj heq => ?_
    have hge : 0x200 ≤ (s.I.toNat + j) % 4096 :=
      origin_le_of_writable (s := s.advance) hp (writable_of_writeBlock hw j hj)
    omega

end Sys2Proof.Machine
end

section
/-! Encoding (30_encoding.md): which rows of the opcode map match a word, the row of each instruction,
and the statements of that family. -/

namespace Sys2Proof

open Laws

/-! ## A word's fields in place, and the word put back together from them -/

@[simp] theorem nibble_toFin (v : BitVec 4) : nibble v.toFin = v := rfl

theorem fieldAt_nnn (w : Word) : fieldAt (fieldsOf w).nnn 0 = w &&& 0x0FFF := by
  unfold fieldAt fieldsOf
  ext i hi
  interval_cases i <;> simp

theorem fieldAt_kk (w : Word) : fieldAt (fieldsOf w).kk 0 = w &&& 0x00FF := by
  unfold fieldAt fieldsOf
  ext i hi
  interval_cases i <;> simp

theorem fieldAt_x (w : Word) : fieldAt (nibble (fieldsOf w).x) 8 = w &&& 0x0F00 := by
  simp only [fieldAt, fieldsOf, nibble_toFin]
  ext i hi
  interval_cases i <;> simp

theorem fieldAt_y (w : Word) : fieldAt (nibble (fieldsOf w).y) 4 = w &&& 0x00F0 := by
  simp only [fieldAt, fieldsOf, nibble_toFin]
  ext i hi
  interval_cases i <;> simp

theorem fieldAt_n (w : Word) : fieldAt (nibble (fieldsOf w).n) 0 = w &&& 0x000F := by
  simp only [fieldAt, fieldsOf, nibble_toFin]
  ext i hi
  interval_cases i <;> simp

theorem or_right_comm_word (u v t : Word) : u ||| v ||| t = u ||| t ||| v := by
  rw [BitVec.or_assoc, BitVec.or_comm v, ← BitVec.or_assoc]

section
variable {w : Word} {a : BitVec 4}

theorem formatNNN_of_and_high (h : w &&& 0xF000 = fieldAt a 12) :
    formatNNN a (fieldsOf w).nnn = w := by
  rw [formatNNN, ← h, fieldAt_nnn, ← BitVec.and_or_distrib_left]
  exact BitVec.and_allOnes

theorem formatXKK_of_and_high (h : w &&& 0xF000 = fieldAt a 12) :
    formatXKK a (fieldsOf w).x (fieldsOf w).kk = w := by
  rw [formatXKK, ← h, fieldAt_x, fieldAt_kk, ← BitVec.and_or_distrib_left,
    ← BitVec.and_or_distrib_left]
  exact BitVec.and_allOnes

theorem formatXKK_of_and_low {kk : Byte} (h : w &&& 0xF0FF = fieldAt a 12 ||| fieldAt kk 0) :
    formatXKK a (fieldsOf w).x kk = w := by
  rw [formatXKK, or_right_comm_word, ← h, fieldAt_x, ← BitVec.and_or_distrib_left]
  exact BitVec.and_allOnes

theorem formatXYN_of_and_high (h : w &&& 0xF000 = fieldAt a 12) :
    formatXYN a (fieldsOf w).x (fieldsOf w).y (fieldsOf w).n = w := by
  rw [formatXYN, ← h, fieldAt_x, fieldAt_y, fieldAt_n]
  simp only [← BitVec.and_or_distrib_left]
  exact BitVec.and_allOnes

theorem formatXYN_of_and_low {n : Fin 16} (h : w &&& 0xF00F = fieldAt a 12 ||| fieldAt (nibble n) 0) :
    formatXYN a (fieldsOf w).x (fieldsOf w).y n = w := by
  rw [formatXYN, or_right_comm_word _ _ (fieldAt (nibble n) 0), or_right_comm_word (fieldAt a 12), ← h,
    fieldAt_x, fieldAt_y]
  simp only [← BitVec.and_or_distrib_left]
  exact BitVec.and_allOnes

end

/-! ## Rows that match a word -/

theorem matchesWord_iff {r : OpcodeRow} {w : Word} :
    r.matchesWord w = true ↔ w &&& r.mask = r.pattern := beq_iff_eq

/-- The two rows fix some bit to different values, so no word matches both. -/
def OpcodeRow.conflicts (r r' : OpcodeRow) : Prop := r.pattern &&& r'.mask ≠ r'.pattern &&& r.mask

theorem OpcodeRow.conflicts.not_matchesWord {r r' : OpcodeRow} {w : Word} (hc : r.conflicts r')
    (h : r.matchesWord w = true) : ¬ r'.matchesWord w = true := by
  intro h'
  rw [matchesWord_iff] at h h'
  refine hc ?_
  rw [← h, ← h', BitVec.and_assoc, BitVec.and_assoc, BitVec.and_comm r.mask]

/-- Below the two rows that R64 tries first, every two rows conflict. -/
theorem opcodeMap_pairwise_conflicts : (opcodeMap.drop 2).Pairwise OpcodeRow.conflicts := by
  unfold OpcodeRow.conflicts
  decide

/-- Where every two rows conflict, a row that matches a word is the only one. -/
theorem filter_matchesWord_of_pairwise {rs : List OpcodeRow} {r : OpcodeRow} {w : Word}
    (hp : rs.Pairwise OpcodeRow.conflicts) (hr : r ∈ rs) (h : r.matchesWord w = true) :
    rs.filter (·.matchesWord w) = [r] := by
  induction rs with
  | nil => cases hr
  | cons q qs ih =>
    obtain ⟨hq, hqs⟩ := List.pairwise_cons.1 hp
    obtain rfl | hr := List.mem_cons.1 hr
    · have hnone : qs.filter (·.matchesWord w) = [] :=
        List.filter_eq_nil_iff.2 fun r' hr' => (hq r' hr').not_matchesWord h
      simp only [List.filter_cons, h, if_true, hnone]
    · have hneg : ¬ q.matchesWord w = true := fun hw => (hq r hr).not_matchesWord hw h
      simp only [List.filter_cons, hneg, ih hqs hr]
      rfl

theorem matchesWord_full_iff {w p : Word} {b : Fields → Instr} :
    OpcodeRow.matchesWord ⟨0xFFFF, p, b⟩ w = true ↔ w = p := by
  have hfull : w &&& 0xFFFF = w := BitVec.and_allOnes
  rw [matchesWord_iff, hfull]

/-- Only 00E0 and 00EE match the two rows that R64 tries first. -/
theorem filter_opcodeMap_of_ne {w : Word} (hcls : w ≠ 0x00E0) (hret : w ≠ 0x00EE) :
    opcodeMap.filter (·.matchesWord w) = (opcodeMap.drop 2).filter (·.matchesWord w) := by
  have htwo : opcodeMap = ⟨0xFFFF, 0x00E0, fun _ => .cls⟩ :: ⟨0xFFFF, 0x00EE, fun _ => .ret⟩ ::
      opcodeMap.drop 2 := rfl
  rw [htwo]
  simp only [List.filter_cons, matchesWord_full_iff, hcls, hret, if_false]
  rfl

/-- At every word but 00E0 and 00EE, a row that matches is the only one (R64). -/
theorem filter_opcodeMap_of_matchesWord {w : Word} {r : OpcodeRow} (hcls : w ≠ 0x00E0)
    (hret : w ≠ 0x00EE) (hr : r ∈ opcodeMap) (h : r.matchesWord w = true) :
    opcodeMap.filter (·.matchesWord w) = [r] := by
  have hmem : r ∈ opcodeMap.filter (·.matchesWord w) := List.mem_filter.2 ⟨hr, h⟩
  rw [filter_opcodeMap_of_ne hcls hret] at hmem ⊢
  exact filter_matchesWord_of_pairwise opcodeMap_pairwise_conflicts (List.mem_filter.1 hmem).1 h

/-! ## The decoder -/

/-- What `decode` can answer: what a matching row builds, or the word itself where no row matches. -/
theorem decode_cases (w : Word) :
    (∃ r ∈ opcodeMap, r.matchesWord w = true ∧ decode w = .instr (r.build (fieldsOf w))) ∨
    (∀ r ∈ opcodeMap, r.matchesWord w = false) ∧ decode w = .unknown w := by
  unfold decode
  split
  · next r hr => exact .inl ⟨r, List.mem_of_find?_eq_some hr, by simpa using List.find?_some hr, rfl⟩
  · next hnone => exact .inr ⟨fun r hr => by simpa using List.find?_eq_none.1 hnone r hr, rfl⟩

theorem decode_eq_unknown_iff {w : Word} :
    decode w = .unknown w ↔ ∀ r ∈ opcodeMap, r.matchesWord w = false := by
  obtain ⟨r, hr, hw, hd⟩ | ⟨hnone, hd⟩ := decode_cases w
  · simp only [hd, reduceCtorEq, false_iff]
    exact fun hnone => absurd (hnone r hr) (by simp [hw])
  · exact iff_of_true hd hnone

/-- The well-formed instruction that a matching row builds is the decoder's answer: at 00E0 and 00EE,
which two rows match, the other row builds a SYS that is not well formed (R64). -/
theorem decode_of_matchesWord {w : Word} {r : OpcodeRow} (hr : r ∈ opcodeMap)
    (h : r.matchesWord w = true) (hwf : (r.build (fieldsOf w)).wellFormed = true) :
    decode w = .instr (r.build (fieldsOf w)) := by
  by_cases hcls : w = 0x00E0
  · subst hcls
    revert r
    decide
  by_cases hret : w = 0x00EE
  · subst hret
    revert r
    decide
  rw [decode, ← List.head?_filter, filter_opcodeMap_of_matchesWord hcls hret hr h]
  rfl

/-! ## The row of each instruction -/

theorem build_formatNNN (c : BitVec 12 → Instr) (a : BitVec 4) (nnn : BitVec 12) :
    c (fieldsOf (formatNNN a nnn)).nnn = c nnn := by
  rw [fieldsOf_formatNNN]

theorem build_formatX (c : Reg → Instr) (a : BitVec 4) (x : Reg) (kk : Byte) :
    c (fieldsOf (formatXKK a x kk)).x = c x := by
  rw [fieldsOf_formatXKK_x]

theorem build_formatXKK (c : Reg → Byte → Instr) (a : BitVec 4) (x : Reg) (kk : Byte) :
    c (fieldsOf (formatXKK a x kk)).x (fieldsOf (formatXKK a x kk)).kk = c x kk := by
  rw [fieldsOf_formatXKK_x, fieldsOf_formatXKK_kk]

theorem build_formatXY (c : Reg → Reg → Instr) (a : BitVec 4) (x y n : Fin 16) :
    c (fieldsOf (formatXYN a x y n)).x (fieldsOf (formatXYN a x y n)).y = c x y := by
  rw [fieldsOf_formatXYN_x, fieldsOf_formatXYN_y]

theorem build_formatXYN (c : Reg → Reg → Fin 16 → Instr) (a : BitVec 4) (x y n : Fin 16) :
    c (fieldsOf (formatXYN a x y n)).x (fieldsOf (formatXYN a x y n)).y
      (fieldsOf (formatXYN a x y n)).n = c x y n := by
  rw [fieldsOf_formatXYN_x, fieldsOf_formatXYN_y, fieldsOf_formatXYN_n]

/-- The word of an instruction matches the row that builds the instruction from it. -/
theorem exists_row_encode : ∀ i : Instr, ∃ (k : Nat) (r : OpcodeRow),
    opcodeMap[k]? = some r ∧ r.matchesWord (encode i) = true ∧ r.build (fieldsOf (encode i)) = i
  | .cls => ⟨0, _, rfl, matchesWord_iff.2 EncodesRow.cls, rfl⟩
  | .ret => ⟨1, _, rfl, matchesWord_iff.2 EncodesRow.ret, rfl⟩
  | .sys nnn => ⟨2, _, rfl, matchesWord_iff.2 (EncodesRow.sys nnn), build_formatNNN .sys _ _⟩
  | .jp nnn => ⟨3, _, rfl, matchesWord_iff.2 (EncodesRow.jp nnn), build_formatNNN .jp _ _⟩
  | .call nnn => ⟨4, _, rfl, matchesWord_iff.2 (EncodesRow.call nnn), build_formatNNN .call _ _⟩
  | .seByte x kk => ⟨5, _, rfl, matchesWord_iff.2 (EncodesRow.seByte x kk), build_formatXKK .seByte _ _ _⟩
  | .sneByte x kk => ⟨6, _, rfl, matchesWord_iff.2 (EncodesRow.sneByte x kk), build_formatXKK .sneByte _ _ _⟩
  | .seReg x y => ⟨7, _, rfl, matchesWord_iff.2 (EncodesRow.seReg x y), build_formatXY .seReg _ _ _ _⟩
  | .ldByte x kk => ⟨8, _, rfl, matchesWord_iff.2 (EncodesRow.ldByte x kk), build_formatXKK .ldByte _ _ _⟩
  | .addByte x kk => ⟨9, _, rfl, matchesWord_iff.2 (EncodesRow.addByte x kk), build_formatXKK .addByte _ _ _⟩
  | .ldReg x y => ⟨10, _, rfl, matchesWord_iff.2 (EncodesRow.ldReg x y), build_formatXY .ldReg _ _ _ _⟩
  | .orReg x y => ⟨11, _, rfl, matchesWord_iff.2 (EncodesRow.orReg x y), build_formatXY .orReg _ _ _ _⟩
  | .andReg x y => ⟨12, _, rfl, matchesWord_iff.2 (EncodesRow.andReg x y), build_formatXY .andReg _ _ _ _⟩
  | .xorReg x y => ⟨13, _, rfl, matchesWord_iff.2 (EncodesRow.xorReg x y), build_formatXY .xorReg _ _ _ _⟩
  | .addReg x y => ⟨14, _, rfl, matchesWord_iff.2 (EncodesRow.addReg x y), build_formatXY .addReg _ _ _ _⟩
  | .subReg x y => ⟨15, _, rfl, matchesWord_iff.2 (EncodesRow.subReg x y), build_formatXY .subReg _ _ _ _⟩
  | .shr x y => ⟨16, _, rfl, matchesWord_iff.2 (EncodesRow.shr x y), build_formatXY .shr _ _ _ _⟩
  | .subnReg x y => ⟨17, _, rfl, matchesWord_iff.2 (EncodesRow.subnReg x y), build_formatXY .subnReg _ _ _ _⟩
  | .shl x y => ⟨18, _, rfl, matchesWord_iff.2 (EncodesRow.shl x y), build_formatXY .shl _ _ _ _⟩
  | .sneReg x y => ⟨19, _, rfl, matchesWord_iff.2 (EncodesRow.sneReg x y), build_formatXY .sneReg _ _ _ _⟩
  | .ldI nnn => ⟨20, _, rfl, matchesWord_iff.2 (EncodesRow.ldI nnn), build_formatNNN .ldI _ _⟩
  | .jpV0 nnn => ⟨21, _, rfl, matchesWord_iff.2 (EncodesRow.jpV0 nnn), build_formatNNN .jpV0 _ _⟩
  | .rnd x kk => ⟨22, _, rfl, matchesWord_iff.2 (EncodesRow.rnd x kk), build_formatXKK .rnd _ _ _⟩
  | .drw x y n => ⟨23, _, rfl, matchesWord_iff.2 (EncodesRow.drw x y n), build_formatXYN .drw _ _ _ _⟩
  | .skp x => ⟨24, _, rfl, matchesWord_iff.2 (EncodesRow.skp x), build_formatX .skp _ _ _⟩
  | .sknp x => ⟨25, _, rfl, matchesWord_iff.2 (EncodesRow.sknp x), build_formatX .sknp _ _ _⟩
  | .ldVxDT x => ⟨26, _, rfl, matchesWord_iff.2 (EncodesRow.ldVxDT x), build_formatX .ldVxDT _ _ _⟩
  | .ldVxK x => ⟨27, _, rfl, matchesWord_iff.2 (EncodesRow.ldVxK x), build_formatX .ldVxK _ _ _⟩
  | .ldDTVx x => ⟨28, _, rfl, matchesWord_iff.2 (EncodesRow.ldDTVx x), build_formatX .ldDTVx _ _ _⟩
  | .ldSTVx x => ⟨29, _, rfl, matchesWord_iff.2 (EncodesRow.ldSTVx x), build_formatX .ldSTVx _ _ _⟩
  | .addIVx x => ⟨30, _, rfl, matchesWord_iff.2 (EncodesRow.addIVx x), build_formatX .addIVx _ _ _⟩
  | .ldFVx x => ⟨31, _, rfl, matchesWord_iff.2 (EncodesRow.ldFVx x), build_formatX .ldFVx _ _ _⟩
  | .ldBVx x => ⟨32, _, rfl, matchesWord_iff.2 (EncodesRow.ldBVx x), build_formatX .ldBVx _ _ _⟩
  | .ldMemVx x => ⟨33, _, rfl, matchesWord_iff.2 (EncodesRow.ldMemVx x), build_formatX .ldMemVx _ _ _⟩
  | .ldVxMem x => ⟨34, _, rfl, matchesWord_iff.2 (EncodesRow.ldVxMem x), build_formatX .ldVxMem _ _ _⟩

/-- Settles O2: the row of a well-formed instruction matches its word and builds it back, and no other
row answers first. -/
theorem decodeInvertsEncode : Obligations.DecodeInvertsEncode := by
  intro i hwf
  obtain ⟨k, r, hk, hmatch, hbuild⟩ := exists_row_encode i
  rw [← hbuild] at hwf
  exact (decode_of_matchesWord (List.mem_of_getElem? hk) hmatch hwf).trans (congrArg _ hbuild)

/-! ## The word of what a row builds -/

theorem encode_build_family0 {w : Word} :
    ∀ r ∈ family0, r.matchesWord w = true → encode (r.build (fieldsOf w)) = w := by
  simp only [family0, List.forall_mem_cons]
  exact ⟨fun h => (matchesWord_full_iff.1 h).symm, fun h => (matchesWord_full_iff.1 h).symm,
    fun h => formatNNN_of_and_high (matchesWord_iff.1 h), fun _ hr => nomatch hr⟩

theorem encode_build_families1to7 {w : Word} :
    ∀ r ∈ families1to7, r.matchesWord w = true → encode (r.build (fieldsOf w)) = w := by
  simp only [families1to7, List.forall_mem_cons, matchesWord_iff]
  exact ⟨fun h => formatNNN_of_and_high h, fun h => formatNNN_of_and_high h,
    fun h => formatXKK_of_and_high h, fun h => formatXKK_of_and_high h,
    fun h => formatXYN_of_and_low h,
    fun h => formatXKK_of_and_high h, fun h => formatXKK_of_and_high h, fun _ hr => nomatch hr⟩

theorem encode_build_family8 {w : Word} :
    ∀ r ∈ family8, r.matchesWord w = true → encode (r.build (fieldsOf w)) = w := by
  simp only [family8, List.forall_mem_cons, matchesWord_iff]
  refine ⟨?_, ?_, ?_, ?_, ?_, ?_, ?_, ?_, ?_, fun _ hr => nomatch hr⟩
  all_goals exact fun h => formatXYN_of_and_low h

theorem encode_build_families9toE {w : Word} :
    ∀ r ∈ families9toE, r.matchesWord w = true → encode (r.build (fieldsOf w)) = w := by
  simp only [families9toE, List.forall_mem_cons, matchesWord_iff]
  exact ⟨fun h => formatXYN_of_and_low h,
    fun h => formatNNN_of_and_high h, fun h => formatNNN_of_and_high h,
    fun h => formatXKK_of_and_high h,
    fun h => formatXYN_of_and_high h,
    fun h => formatXKK_of_and_low h, fun h => formatXKK_of_and_low h, fun _ hr => nomatch hr⟩

theorem encode_build_familyF {w : Word} :
    ∀ r ∈ familyF, r.matchesWord w = true → encode (r.build (fieldsOf w)) = w := by
  simp only [familyF, List.forall_mem_cons, matchesWord_iff]
  refine ⟨?_, ?_, ?_, ?_, ?_, ?_, ?_, ?_, ?_, fun _ hr => nomatch hr⟩
  all_goals exact fun h => formatXKK_of_and_low h

/-- R72, for every row that matches the word, also for the SYS row at 00E0 and 00EE. -/
theorem encode_build {w : Word} {r : OpcodeRow} (hr : r ∈ opcodeMap) (h : r.matchesWord w = true) :
    encode (r.build (fieldsOf w)) = w := by
  simp only [opcodeMap, List.mem_append] at hr
  obtain (((hr | hr) | hr) | hr) | hr := hr
  · exact encode_build_family0 r hr h
  · exact encode_build_families1to7 r hr h
  · exact encode_build_family8 r hr h
  · exact encode_build_families9toE r hr h
  · exact encode_build_familyF r hr h

theorem encode_of_decode {w : Word} {i : Instr} (h : decode w = .instr i) : encode i = w := by
  obtain ⟨r, hr, hw, hd⟩ | ⟨-, hd⟩ := decode_cases w
  · cases h.symm.trans hd
    exact encode_build hr hw
  · cases h.symm.trans hd

theorem wellFormed_eq_false_iff {i : Instr} :
    i.wellFormed = false ↔ i = .sys 0x0E0 ∨ i = .sys 0x0EE := by
  cases i with
  | sys nnn => simp [Instr.wellFormed, or_iff_not_imp_left]
  | _ => simp [Instr.wellFormed]

/-- The words of the two SYS terms that are not well formed decode to CLS and RET (R64). -/
theorem wellFormed_of_decode {w : Word} {i : Instr} (h : decode w = .instr i) :
    i.wellFormed = true := by
  by_contra hwf
  have hw := encode_of_decode h
  obtain rfl | rfl := wellFormed_eq_false_iff.1 (Bool.eq_false_iff.2 hwf)
  all_goals
    subst hw
    exact absurd h (by decide)

/-- Settles O3: the word is the encoding of what any matching row builds, and a SYS term that is not
well formed is no decoding. -/
theorem encodeInvertsDecode : Obligations.EncodeInvertsDecode := by
  refine fun w => ⟨fun i h => ⟨encode_of_decode h, wellFormed_of_decode h⟩, fun u h => ?_⟩
  obtain ⟨r, -, -, hd⟩ | ⟨-, hd⟩ := decode_cases w
  · cases h.symm.trans hd
  · cases h.symm.trans hd
    rfl

/-! ## How many rows match a word -/

theorem exists_decode_unknown_iff {w : Word} :
    (∃ u, decode w = .unknown u) ↔ decode w = .unknown w :=
  ⟨fun ⟨u, h⟩ => (encodeInvertsDecode w).2 u h ▸ h, fun h => ⟨w, h⟩⟩

/-- Settles O4: at 00E0 and 00EE the rows are counted; at another word a matching row is the only
one. -/
theorem rowsMatchingEachWord : Obligations.RowsMatchingEachWord := by
  refine fun w => ⟨exists_decode_unknown_iff.trans decode_eq_unknown_iff, ?_⟩
  split_ifs with hspecial hunknown
  · obtain rfl | rfl := hspecial
    · decide
    · decide
  · rw [List.length_eq_zero_iff, List.filter_eq_nil_iff]
    exact fun r hr => Bool.eq_false_iff.1 (decode_eq_unknown_iff.1 hunknown r hr)
  · obtain ⟨hcls, hret⟩ := not_or.1 hspecial
    obtain ⟨r, hr, hw, -⟩ | ⟨-, hd⟩ := decode_cases w
    · rw [filter_opcodeMap_of_matchesWord hcls hret hr hw, List.length_singleton]
    · exact absurd hd hunknown

/-! ## The unknown words

Every row fixes the top nibble of a word, `w >>> 12`, and the bits below it that its mask keeps: none, the
low nibble or the low byte. -/

theorem and_or_eq_iff (w p m m' : Word) :
    w &&& (m ||| m') = p &&& (m ||| m') ↔ w &&& m = p &&& m ∧ w &&& m' = p &&& m' := by
  constructor
  · intro h
    have hand : ∀ v : Word, w &&& ((m ||| m') &&& v) = p &&& ((m ||| m') &&& v) := fun v => by
      rw [← BitVec.and_assoc, h, BitVec.and_assoc]
    have habsorb : ∀ u v : Word, (u ||| v) &&& u = u := fun u v => by
      ext
      simp +contextual
    have hl := hand m
    have hr := hand m'
    rw [habsorb] at hl
    rw [BitVec.or_comm, habsorb] at hr
    exact ⟨hl, hr⟩
  · rintro ⟨h, h'⟩
    rw [BitVec.and_or_distrib_left, BitVec.and_or_distrib_left, h, h']

theorem and_F000_eq_iff {w p : Word} : w &&& 0xF000 = p &&& 0xF000 ↔ w >>> 12 = p >>> 12 := by
  have hdown : ∀ v : Word, v >>> 12 = (v &&& 0xF000) >>> 12 := fun v => by
    ext i hi
    interval_cases i <;> simp
  have hup : ∀ v : Word, v &&& (0xF000 : Word) = (v >>> 12) <<< 12 := fun v => by
    ext i hi
    interval_cases i <;> simp
  exact ⟨fun h => by rw [hdown w, h, ← hdown p], fun h => by rw [hup w, h, ← hup p]⟩

theorem matchesWord_eq_false_iff {r : OpcodeRow} {w : Word}
    (hm : 0xF000 ||| (r.mask &&& 0x0FFF) = r.mask) (hp : r.pattern &&& r.mask = r.pattern) :
    r.matchesWord w = false ↔ ¬(w >>> 12 = r.pattern >>> 12 ∧
      w &&& (r.mask &&& 0x0FFF) = r.pattern &&& (r.mask &&& 0x0FFF)) := by
  rw [← Bool.not_eq_true, matchesWord_iff, ← and_F000_eq_iff, ← and_or_eq_iff, hm, hp]

/-! What is left of each family: its words that no row matches (R65 to R69). -/

section
variable {w : Word}

theorem unmatched_family0 : (∀ r ∈ family0, r.matchesWord w = false) ↔ w >>> 12 ≠ 0x0 := by
  simp +contextual (disch := decide) [family0, matchesWord_eq_false_iff, ← and_assoc]

theorem unmatched_families1to7 : (∀ r ∈ families1to7, r.matchesWord w = false) ↔
    w >>> 12 ∉ ([0x1, 0x2, 0x3, 0x4] : List Word) ∧ ¬(w >>> 12 = 0x5 ∧ w &&& 0xF = 0x0) ∧
    w >>> 12 ∉ ([0x6, 0x7] : List Word) := by
  simp (disch := decide) [families1to7, matchesWord_eq_false_iff, and_assoc]

theorem unmatched_family8 : (∀ r ∈ family8, r.matchesWord w = false) ↔
    ¬(w >>> 12 = 0x8 ∧ w &&& 0xF ∈ [0x0, 0x1, 0x2, 0x3, 0x4, 0x5, 0x6, 0x7, 0xE]) := by
  simp (disch := decide) [family8, matchesWord_eq_false_iff, imp_and]

theorem unmatched_families9toE : (∀ r ∈ families9toE, r.matchesWord w = false) ↔
    ¬(w >>> 12 = 0x9 ∧ w &&& 0xF = 0x0) ∧ w >>> 12 ∉ ([0xA, 0xB, 0xC, 0xD] : List Word) ∧
    ¬(w >>> 12 = 0xE ∧ w &&& 0xFF ∈ [0x9E, 0xA1]) := by
  simp (disch := decide) [families9toE, matchesWord_eq_false_iff, imp_and, and_assoc]

theorem unmatched_familyF : (∀ r ∈ familyF, r.matchesWord w = false) ↔
    ¬(w >>> 12 = 0xF ∧ w &&& 0xFF ∈ [0x07, 0x0A, 0x15, 0x18, 0x1E, 0x29, 0x33, 0x55, 0x65]) := by
  simp (disch := decide) [familyF, matchesWord_eq_false_iff, imp_and]

theorem ushiftRight_12_mem : w >>> 12 ∈ ([0x0, 0x1, 0x2, 0x3, 0x4, 0x5, 0x6, 0x7, 0x8, 0x9, 0xA, 0xB,
    0xC, 0xD, 0xE, 0xF] : List Word) := by
  have hfield : w >>> 12 = fieldAt (w.extractLsb' 12 4) 0 := by
    unfold fieldAt
    ext i hi
    interval_cases i <;> simp
  rw [hfield]
  generalize w.extractLsb' 12 4 = a
  revert a
  decide

theorem and_F_not_mem_iff : w &&& 0xF ∉ ([0x0, 0x1, 0x2, 0x3, 0x4, 0x5, 0x6, 0x7, 0xE] : List Word) ↔
    w &&& 0xF ∈ ([0x8, 0x9, 0xA, 0xB, 0xC, 0xD, 0xF] : List Word) := by
  rw [← fieldAt_n]
  generalize (fieldsOf w).n = n
  revert n
  decide

end

/-- Settles O5: the top nibble, one of sixteen values, leaves the unmatched words of one family. -/
theorem unknownWordsByFamily : Obligations.UnknownWordsByFamily := by
  intro w
  rw [decode_eq_unknown_iff]
  simp only [opcodeMap, List.forall_mem_append, unmatched_family0, unmatched_families1to7,
    unmatched_family8, unmatched_families9toE, unmatched_familyF, ← and_F_not_mem_iff]
  have ha := ushiftRight_12_mem (w := w)
  generalize w >>> 12 = a at *
  simp only [List.mem_cons, List.not_mem_nil, or_false] at ha
  rcases ha with rfl | rfl | rfl | rfl | rfl | rfl | rfl | rfl | rfl | rfl | rfl | rfl | rfl | rfl |
    rfl | rfl
  all_goals simp

/-- Settles O1: each of the thirteen words is decoded. -/
theorem specWordsDecode : Obligations.SpecWordsDecode := by
  unfold Obligations.SpecWordsDecode
  decide

end Sys2Proof
end

section
/-! The cycle (40_cycle.md): what a step and a `run_for` answer in each case, said once, and the
statements of that family. -/

namespace Sys2Proof.Machine

/-! ## The step, case by case -/

/-- Outside Running a step does nothing (R82, R83). -/
theorem step_of_not_running {s : State} (h : s.run ≠ .running) : step s = .next s := by
  simp only [step, State.cycle]
  split
  · next hr => exact absurd hr h
  · rfl
  · rfl

/-- A fetch that fails takes its fault with no word (R77). -/
theorem step_of_fetch_error {s : State} {r : Raise} (hr : s.run = .running)
    (hf : s.fetch = .error r) : step s = .next (s.faultedWith r.kind none r.memAddr) := by
  simp only [step, State.cycle, hr, State.runCycle, hf, raise_eq]

/-- A fetch reports the first of its two addresses that is not readable. -/
theorem fetch_of_firstUnreadable {s : State} {k : Nat} (h : s.FirstUnreadable s.pc.toNat 2 k) :
    s.fetch = .error ⟨.memoryOutOfRange, some (s.pc.toNat + k)⟩ := by
  obtain ⟨hk, hok, hbad⟩ := h
  obtain rfl | rfl : k = 0 ∨ k = 1 := by omega
  · rw [Nat.add_zero] at hbad ⊢
    simp only [State.fetch, memRead_of_not_readable hbad]
  · have h₀ : s.Readable s.pc.toNat := hok 0 Nat.one_pos
    simp only [State.fetch, memRead_of_readable h₀, memRead_of_not_readable hbad]

/-- Settles O6: the step is the execute phase, and no word decodes to a term that is not well formed. -/
theorem stepRunsDecodedInstruction : Obligations.StepRunsDecodedInstruction := fun _ _ _ h =>
  ⟨step_of_executes h, wellFormed_of_decode h.2.2⟩

/-- Settles O8: the fetch reports A + k, and the step takes its fault. -/
theorem fetchBeyondStoreFaults : Obligations.FetchBeyondStoreFaults := fun _ _ hr h =>
  step_of_fetch_error hr (fetch_of_firstUnreadable h)

/-- Settles O9: the fault is raised from the state before the fetch's advance. -/
theorem unknownWordFaults : Obligations.UnknownWordFaults := by
  intro s w hr hf hd
  simp only [step, State.cycle, hr, State.runCycle, hf, hd, raise_eq]

/-! ## The reply of a step -/

theorem outcome_of_running {s : State} (dirty : Bool) (h : s.run = .running) :
    s.outcome dirty = .ok s.pc dirty false := by
  simp only [State.outcome, h]

theorem outcome_of_waiting {s : State} {x : Reg} (dirty : Bool) (h : s.run = .waitingForKey x) :
    s.outcome dirty = .ok s.pc false true := by
  simp only [State.outcome, h]

theorem outcome_of_faulted {s : State} {f : FaultRecord} (dirty : Bool) (h : s.run = .faulted f) :
    s.outcome dirty = .fault f := by
  simp only [State.outcome, h]

/-- The operation `step` replies the outcome that the state after the step shows. -/
theorem perform_step {s t : State} (h : step s = .next t) :
    s.perform .step = .next (t, .outcome (t.outcome s.stepDirty)) := by
  simp only [State.perform, State.stepReply, h]

/-- Settles O10: the idle step's outcome is the one the wait shows. -/
theorem waitingStepIsIdle : Obligations.WaitingStepIsIdle := by
  intro s x hw
  have hstep : step s = .next s := step_of_not_running (by simp [hw])
  exact ⟨hstep, by rw [perform_step hstep, outcome_of_waiting _ hw]⟩

/-- The instruction the next step executes is the one it fetches and decodes. -/
theorem nextInstr_eq_some_iff {s : State} {i : Instr} :
    s.nextInstr = some i ↔ ∃ w, s.Executes w i := by
  constructor
  · intro h
    unfold State.nextInstr at h
    split at h
    · cases h
    · cases h
    · next hr =>
      split at h
      · cases h
      · next w hf =>
        split at h
        · cases h
        · next j hd => exact ⟨w, hr, hf, Option.some.inj h ▸ hd⟩
  · rintro ⟨w, hr, hf, hd⟩
    simp only [State.nextInstr, hr, hf, hd]

theorem drawsDisplay_iff {i : Instr} : drawsDisplay i = true ↔ i = .cls ∨ ∃ x y n, i = .drw x y n := by
  cases i <;> simp [drawsDisplay]

/-- The dirty flag of a step says that it executes 00E0 or Dxyn (R81). -/
theorem stepDirty_iff {s : State} : s.stepDirty = true ↔ s.ExecutesDraw := by
  have hnext : s.stepDirty = true ↔ ∃ i, s.nextInstr = some i ∧ drawsDisplay i = true := by
    unfold State.stepDirty
    cases s.nextInstr <;> simp
  simp only [hnext, nextInstr_eq_some_iff, drawsDisplay_iff, State.ExecutesDraw]
  constructor
  · rintro ⟨i, ⟨w, hex⟩, rfl | ⟨x, y, n, rfl⟩⟩
    · exact ⟨w, .inl hex⟩
    · exact ⟨w, .inr ⟨x, y, n, hex⟩⟩
  · rintro ⟨w, hex | ⟨x, y, n, hex⟩⟩
    · exact ⟨_, ⟨w, hex⟩, .inl rfl⟩
    · exact ⟨_, ⟨w, hex⟩, .inr ⟨x, y, n, rfl⟩⟩

/-! ## The run state after a step -/

/-- A completed execute phase runs on, or waits after Fx0A. -/
theorem effect_run {s t : State} {i : Instr} (hr : s.run = .running) (h : Effect s t i) :
    t.run = .running ∨ ∃ x, i = .ldVxK x ∧ t.run = .waitingForKey x := by
  by_cases hp : Part.run ∈ partsWritten i
  · obtain ⟨x, rfl⟩ := run_mem_partsWritten hp
    obtain rfl : t = _ := h
    exact .inr ⟨x, rfl, rfl⟩
  · exact .inl (((effect_frame h).run hp).trans hr)

/-- Fx0A completes and starts the wait. -/
theorem step_of_executes_ldVxK {s : State} {w : Word} {x : Reg} (h : s.Executes w (.ldVxK x)) :
    step s = .next (s.advance.setRun (.waitingForKey x)) := step_of_executes h

/-- Settles O41: an idle step keeps the run state, a fault is no wait, and of the completed execute
phases only that of Fx0A waits. -/
theorem stepChangesRunState : Obligations.StepChangesRunState := by
  intro s t h
  refine ⟨fun hr => ?_, fun hr x => ⟨fun hx => ?_, fun ⟨w, hex⟩ => ?_⟩⟩
  · rw [step_of_not_running hr, Host.Outcome.next.injEq] at h
    rw [h]
  · obtain ⟨hr', -⟩ | ⟨-, -, k, w, m, rfl⟩ | ⟨w, i, hex, he⟩ := step_cases h
    · exact absurd hr hr'
    · cases hx
    · obtain ⟨k, m, rfl⟩ | heff := exec_cases he
      · cases hx
      · obtain hrun | ⟨y, rfl, hy⟩ := effect_run hr heff
        · cases hrun.symm.trans hx
        · cases hy.symm.trans hx
          exact ⟨w, hex⟩
  · rw [step_of_executes_ldVxK hex, Host.Outcome.next.injEq] at h
    rw [← h, State.setRun_run]

theorem run_of_executesDraw {s : State} : s.ExecutesDraw → s.run = .running
  | ⟨_, .inl hex⟩ => hex.1
  | ⟨_, .inr ⟨_, _, _, hex⟩⟩ => hex.1

/-- A step after which the machine waits drew nothing: it was idle, or it executed Fx0A. -/
theorem not_executesDraw_of_waiting {s t : State} {x : Reg} (h : step s = .next t)
    (hw : t.run = .waitingForKey x) : ¬ s.ExecutesDraw := by
  intro hdraw
  obtain ⟨w, hwait⟩ := ((stepChangesRunState s t h).2 (run_of_executesDraw hdraw) x).1 hw
  obtain ⟨w', hex | ⟨y, z, n, hex⟩⟩ := hdraw
  · cases (executes_unique hwait hex).2
  · cases (executes_unique hwait hex).2

/-- Settles O12, by the run state after the step. -/
theorem stepOutcomeReports : Obligations.StepOutcomeReports := by
  intro s t h
  rw [perform_step h]
  refine ⟨fun f hf => by rw [outcome_of_faulted _ hf], fun hnf => ?_⟩
  cases hrun : t.run with
  | running =>
    exact ⟨s.stepDirty, false, by rw [outcome_of_running _ hrun], stepDirty_iff, by simp⟩
  | waitingForKey x =>
    have hdraw := not_executesDraw_of_waiting h hrun
    exact ⟨false, true, by rw [outcome_of_waiting _ hrun], iff_of_false Bool.false_ne_true hdraw,
      by simp⟩
  | faulted f => exact absurd hrun (hnf f)

/-! ## The timers in a step -/

theorem dt_mem_partsWritten {i : Instr} (h : Part.dt ∈ partsWritten i) : ∃ x, i = .ldDTVx x := by
  cases i <;> simp_all [partsWritten]

theorem st_mem_partsWritten {i : Instr} (h : Part.st ∈ partsWritten i) : ∃ x, i = .ldSTVx x := by
  cases i <;> simp_all [partsWritten]

theorem step_of_executes_ldDTVx {s : State} {w : Word} {x : Reg} (h : s.Executes w (.ldDTVx x)) :
    step s = .next (s.advance.setDT (s.getV x)) := step_of_executes h

theorem step_of_executes_ldSTVx {s : State} {w : Word} {x : Reg} (h : s.Executes w (.ldSTVx x)) :
    step s = .next (s.advance.setST (s.getV x)) := step_of_executes h

/-- Settles O46: only Fx15 lists DT and only Fx18 lists ST, and each writes the register's value. -/
theorem timersChangeOnlyByWrites : Obligations.TimersChangeOnlyByWrites := by
  intro s t h
  obtain ⟨r, rfl⟩ | ⟨w, i, hex, hf⟩ := step_frame h
  · exact ⟨fun hne => absurd rfl hne, fun hne => absurd rfl hne⟩
  · refine ⟨fun hne => ?_, fun hne => ?_⟩
    · obtain ⟨x, rfl⟩ := dt_mem_partsWritten (not_imp_comm.1 hf.dt hne)
      rw [step_of_executes_ldDTVx hex, Host.Outcome.next.injEq] at h
      exact ⟨w, x, hex, by rw [← h, State.setDT_dt]⟩
    · obtain ⟨x, rfl⟩ := st_mem_partsWritten (not_imp_comm.1 hf.st hne)
      rw [step_of_executes_ldSTVx hex, Host.Outcome.next.injEq] at h
      exact ⟨w, x, hex, by rw [← h, State.setST_st]⟩

/-! ## The operations outside Running -/

/-- `set_key_state` as an operation answers the state that `setKeyState` does. -/
theorem setKeyState_of_perform {s t : State} {k : Nat} {p : Bool} {r : Reply}
    (h : s.perform (.setKeyState k p) = .next (t, r)) : s.setKeyState k p = .next t := by
  simp only [State.perform, State.keyReply] at h
  split at h
  · next hk => rw [hk, (Prod.mk.inj (Host.Outcome.next.inj h)).1]
  · cases h
  · cases h

/-- A key ends no fault (60_exceptions.md R138). -/
theorem setKeyState_run_of_faulted {s t : State} {k : Nat} {p : Bool} {f : FaultRecord}
    (hf : s.run = .faulted f) (h : s.setKeyState k p = .next t) : t.run = .faulted f := by
  unfold State.setKeyState at h
  split at h
  · simp only [State.keyChanged, State.setKey_run, hf, Host.Outcome.next.injEq] at h
    rw [← h, State.setKey_run, hf]
  · cases h

/-- Settles O11: the step and `run_for` are idle outside Running, a key ends no fault, and the other
operations but `reset` do not write the run state. -/
theorem faultedStepIsIdle : Obligations.FaultedStepIsIdle := by
  intro s f hf
  have hr : s.run ≠ .running := by simp [hf]
  have hstep : step s = .next s := step_of_not_running hr
  refine ⟨hstep, by rw [perform_step hstep, outcome_of_faulted _ hf], fun q t r h hq => ?_⟩
  have he := perform_effect h
  cases q
  case step =>
    obtain rfl : s = t := Host.Outcome.next.inj (hstep.symm.trans he)
    exact hf
  case runFor n =>
    obtain rfl : t = _ := he
    rwa [State.runFor, runLoop_of_not_running _ n hr]
  case reset => exact absurd rfl hq
  case setKeyState k p => exact setKeyState_run_of_faulted hf (setKeyState_of_perform h)
  case tick => obtain ⟨d, e, rfl⟩ := he; exact hf
  case load => obtain rfl | rfl := he <;> exact hf
  case display | soundActive | dump => subst he; exact hf

/-! ## `run_for` -/

/-- What every step and the scheduler's count keep, `run_for` keeps. -/
theorem runFor_keeps {P : State → Prop} (hcount : ∀ u, P u → P u.countStep)
    (hstep : ∀ u t, P u → step u = .next t → P t) {s : State} (h : P s) (n : Nat) :
    P (s.runFor n).1 := by
  by_contra hn
  obtain ⟨m, -, t, ht, hP, hnot⟩ := runLoop_breaking_step hcount h hn
  exact hnot (hstep _ t hP ht)

theorem step_cyc {s t : State} (h : step s = .next t) : t.cyc = s.cyc := by
  obtain ⟨r, rfl⟩ | ⟨w, i, -, hf⟩ := step_frame h
  · rfl
  · exact hf.cyc

@[simp] theorem countStep_cyc (s : State) : s.countStep.cyc = s.cyc + 1 := by
  obtain ⟨d, e, h⟩ := countStep_eq s
  rw [h]

/-- Outside Faulted a tick is one decrement of each timer (60_exceptions.md R141). -/
theorem tick_of_not_faulted {s : State} (h : ∀ f, s.run ≠ .faulted f) :
    s.tick = (s.setDT (timerTick s.dt)).setST (timerTick s.st) := by
  unfold State.tick
  split
  · next f hf => exact absurd hf (h f)
  · rfl
  · rfl

theorem countStep_of_due {s : State} (h : (s.cyc + 1) % s.cfg.ticksEvery = 0) :
    s.countStep = State.tick { s with cyc := s.cyc + 1 } := by
  simp only [State.countStep, h, if_true]

theorem countStep_of_not_due {s : State} (h : (s.cyc + 1) % s.cfg.ticksEvery ≠ 0) :
    s.countStep = { s with cyc := s.cyc + 1 } := by
  simp only [State.countStep, h, if_false]

/-- What the loop does from Running with a step left, whatever the number of steps and the outcome so
far: it ends in the fault of that step, or counts the step and goes on with its outcome. -/
theorem runLoop_succ_cases {s : State} (hr : s.run = .running) : ∃ t, step s = .next t ∧
    ((∃ f, t.run = .faulted f ∧ ∀ o n, s.runLoop o (n + 1) = (t, .fault f)) ∨
     ∀ o n, s.runLoop o (n + 1) = t.countStep.runLoop (t.outcome s.stepDirty) n) := by
  obtain ⟨t, ht⟩ := step_answers s
  refine ⟨t, ht, ?_⟩
  by_cases hf : ∃ f, t.run = .faulted f
  · obtain ⟨f, hf⟩ := hf
    exact .inl ⟨f, hf, fun o n => runLoop_succ_of_faulted o n hr ht hf⟩
  · exact .inr fun o n => runLoop_succ_of_not_faulted o n hr ht (not_exists.1 hf)

/-- The loop adds at most its number of steps to `cyc`, and exactly that number if it ends
Running. -/
theorem runLoop_cyc (s : State) (o : StepOutcome) (n : Nat) :
    s.cyc ≤ (s.runLoop o n).1.cyc ∧ (s.runLoop o n).1.cyc ≤ s.cyc + n ∧
      ((s.runLoop o n).1.run = .running → (s.runLoop o n).1.cyc = s.cyc + n) := by
  induction n generalizing s o with
  | zero => exact ⟨le_rfl, le_rfl, fun _ => rfl⟩
  | succ n ih =>
    by_cases hr : s.run = .running
    · obtain ⟨t, ht, ⟨f, hf, hloop⟩ | hloop⟩ := runLoop_succ_cases hr
      · simp [hloop, hf, step_cyc ht]
      · rw [hloop]
        obtain ⟨hlow, hhigh, hexact⟩ := ih t.countStep (t.outcome s.stepDirty)
        rw [countStep_cyc, step_cyc ht] at hlow hhigh hexact
        exact ⟨by omega, by omega, fun hrun => by rw [hexact hrun]; omega⟩
    · simp [runLoop_of_not_running o _ hr, hr]

/-- `run_for(1)` of a step that does not fault is the step, counted, with its outcome. -/
theorem runFor_one_of_not_faulted {s t : State} (hr : s.run = .running) (h : step s = .next t)
    (hf : ∀ f, t.run ≠ .faulted f) : s.runFor 1 = (t.countStep, t.outcome s.stepDirty) :=
  runLoop_succ_of_not_faulted _ 0 hr h hf

/-- Settles O58: the loop's count, then its one step by whether it faults. -/
theorem runForCountsSteps : Obligations.RunForCountsSteps := by
  refine ⟨fun s n => ⟨fun hidle => ?_, _, _, rfl, runLoop_cyc s _ n⟩, fun s t f hr h hf => ?_,
    fun s t hr h hf => ?_⟩
  · have hrun : s.runFor n = (s, s.outcome false) := by
      obtain rfl | hr := hidle
      · rfl
      · exact runLoop_of_not_running _ n hr
    simp only [State.perform, hrun]
  · have hrun : s.runFor 1 = (t, .fault f) := runLoop_succ_of_faulted _ 0 hr h hf
    exact ⟨by simp only [State.perform, hrun], step_cyc h⟩
  · have hcyc := step_cyc h
    have hcfg := (step_key_cfg h).2
    refine ⟨t.countStep, t.outcome s.stepDirty, perform_step h, ?_, ?_, ?_, ?_⟩
    · simp only [State.perform, runFor_one_of_not_faulted hr h hf]
    · obtain ⟨d, e, hcount⟩ := countStep_eq t
      rw [hcount, hcyc]
    · rw [countStep_cyc, ← hcfg]
      intro hdue
      rw [countStep_of_due hdue, tick_of_not_faulted (s := { t with cyc := t.cyc + 1 }) hf]
      exact ⟨toNat_timerTick _, toNat_timerTick _⟩
    · rw [countStep_cyc, ← hcfg]
      intro hdue
      rw [countStep_of_not_due hdue]
      exact ⟨rfl, rfl⟩

/-- The loop of m + n steps is the loop of m, then that of n from the outcome so far. -/
theorem runLoop_add (s : State) (o : StepOutcome) (m n : Nat) :
    s.runLoop o (m + n) = (s.runLoop o m).1.runLoop (s.runLoop o m).2 n := by
  induction m generalizing s o with
  | zero => rw [Nat.zero_add]; rfl
  | succ m ih =>
    rw [Nat.add_right_comm]
    by_cases hr : s.run = .running
    · obtain ⟨t, -, ⟨f, hf, hloop⟩ | hloop⟩ := runLoop_succ_cases hr
      · have hend : t.run ≠ .running := by simp [hf]
        rw [hloop, hloop, runLoop_of_not_running _ n hend]
      · rw [hloop, hloop, ih]
    · simp only [runLoop_of_not_running _ _ hr]

/-- A loop that executes a step forgets the outcome it started with. -/
theorem runLoop_congr_of_running {s : State} {n : Nat} (hn : 0 < n) (hr : s.run = .running)
    (o o' : StepOutcome) : s.runLoop o n = s.runLoop o' n := by
  obtain ⟨n, rfl⟩ := Nat.exists_eq_succ_of_ne_zero hn.ne'
  obtain ⟨t, -, ⟨f, -, hloop⟩ | hloop⟩ := runLoop_succ_cases hr
  · rw [hloop, hloop]
  · rw [hloop, hloop]

/-- The state a loop ends in does not depend on the outcome it started with. -/
theorem runLoop_state_congr (s : State) (n : Nat) (o o' : StepOutcome) :
    (s.runLoop o n).1 = (s.runLoop o' n).1 := by
  by_cases hr : s.run = .running
  · obtain rfl | hn := Nat.eq_zero_or_pos n
    · rfl
    · rw [runLoop_congr_of_running hn hr]
  · rw [runLoop_of_not_running o n hr, runLoop_of_not_running o' n hr]

/-- Settles O59: the loop splits; from Running its second part forgets the outcome it started with, and
otherwise it does nothing. -/
theorem runForSplits : Obligations.RunForSplits := by
  intro s m n
  have hsplit : s.runFor (m + n) = (s.runFor m).1.runLoop (s.runFor m).2 n := runLoop_add s _ m n
  rw [hsplit]
  exact ⟨runLoop_state_congr _ n _ _,
    fun hn hr => congrArg Prod.snd (runLoop_congr_of_running hn hr _ _),
    fun hr => congrArg Prod.snd (runLoop_of_not_running _ n hr)⟩

/-! ## The canonical form of memory -/

theorem countStep_memCanonical {s : State} (h : s.MemCanonical) : s.countStep.MemCanonical := by
  obtain ⟨d, e, hcount⟩ := countStep_eq s
  rw [hcount]
  exact h

/-- An image that is loaded lies in the store, and one that is refused leaves memory. -/
theorem loadReply_memCanonical {s : State} (bytes : List Byte) (h : s.MemCanonical) :
    (s.loadReply bytes).1.MemCanonical := by
  unfold State.loadReply
  split
  · exact h
  · next t hl =>
    obtain ⟨hlen, rfl⟩ := load_cases hl
    have hfit : origin + bytes.length ≤ memSize := by
      unfold origin memSize
      omega
    exact Memory.wf_writeAll hfit h

/-- Settles O52: a step keeps the form, and with the scheduler's count so does `run_for`; a loaded
image lies in the store; after `reset` no byte is listed; and the other operations do not write
memory. -/
theorem hostKeepsMemoryCanonical : Obligations.HostKeepsMemoryCanonical := by
  intro s t q r hm h
  have he := perform_effect h
  cases q
  case step => exact stepKeepsMemoryCanonical s t hm he
  case runFor n =>
    obtain rfl : t = _ := he
    exact runFor_keeps (P := State.MemCanonical) (fun _ => countStep_memCanonical)
      stepKeepsMemoryCanonical hm n
  case load bytes =>
    have ht : (s.loadReply bytes).1 = t := congrArg Prod.fst (Host.Outcome.next.inj h)
    exact ht ▸ loadReply_memCanonical bytes hm
  case reset => obtain rfl : t = _ := he; exact Memory.wf_nil _
  case tick => obtain ⟨d, e, rfl⟩ := he; exact hm
  case setKeyState => obtain ⟨v, k, u, rfl⟩ := he; exact hm
  case display | soundActive | dump => subst he; exact hm

end Sys2Proof.Machine
end

section
/-! Family 0 (41_system.md): the decoding of SYS, what CLS and RET answer, and the statements of that
family. -/

namespace Sys2Proof.Machine

/-! ## The execute phase of RET -/

/-- With SP > 0, RET pops the topmost entry into PC (R91). -/
theorem exec_ret_of_pos {s : State} (h : 0 < s.sp.val) :
    exec .ret s = .next ((s.setStack ⟨s.sp.val - 1, by omega⟩ s.stack).setPC
      (s.stack[s.sp.val - 1]'(by omega))) := by
  simp only [exec, execRet, pop_of_pos h]

/-- A step that executes RET on the empty stack takes the fault with the word it fetched (R91). -/
theorem step_of_executes_ret_of_empty {s : State} {w : Word} (h : s.Executes w .ret)
    (hsp : s.sp.val = 0) : step s = .next (s.faultedWith .stackUnderflow (some w) none) := by
  have hpop : s.advance.pop = none := pop_of_empty hsp
  have hword : encode .ret = w := encode_of_decode h.2.2
  simp only [step_of_executes h, exec, execRet, hpop, raiseIn_advance, hword]

/-- Settles O15: by the depth of the stack, the pop or the fault. -/
theorem retPopsReturnAddress : Obligations.RetPopsReturnAddress := by
  refine ⟨by decide, fun s h => ⟨_, exec_ret_of_pos h, rfl, rfl, ?_⟩,
    fun s w => step_of_executes_ret_of_empty⟩
  exact (frame_setStack_same s _).trans (frame_setPC _ _)

/-! ## SYS -/

/-- The row of SYS, which R64 tries after those of CLS and RET. -/
def sysRow : OpcodeRow := ⟨0xF000, 0x0000, fun f => .sys f.nnn⟩

theorem sysRow_mem_opcodeMap : sysRow ∈ opcodeMap := List.mem_of_getElem? (i := 2) rfl

/-- A word 0nnn that the first two rows of R64 do not claim is SYS: were its SYS term not well formed,
the word would be the encoding of that term, 00E0 or 00EE. -/
theorem decode_of_family0 {w : Word} (h : w &&& 0xF000 = 0x0000) (hcls : w ≠ 0x00E0)
    (hret : w ≠ 0x00EE) : decode w = .instr (.sys (fieldsOf w).nnn) := by
  have hmatch : sysRow.matchesWord w = true := matchesWord_iff.2 h
  refine decode_of_matchesWord sysRow_mem_opcodeMap hmatch ?_
  by_contra hwf
  have hword := encode_build sysRow_mem_opcodeMap hmatch
  obtain hnnn | hnnn := wellFormed_eq_false_iff.1 (Bool.eq_false_iff.2 hwf)
  · exact hcls (hword.symm.trans (congrArg encode hnnn))
  · exact hret (hword.symm.trans (congrArg encode hnnn))

/-- Settles O13: the execute phase of SYS answers the state it is given. -/
theorem sysDoesNothing : Obligations.SysDoesNothing :=
  ⟨fun _ => decode_of_family0, fun _ _ => rfl⟩

/-! ## CLS -/

theorem step_of_executes_cls {s : State} {w : Word} (h : s.Executes w .cls) :
    step s = .next (s.advance.setDisp Display.clear) := step_of_executes h

/-- Settles O14: the step executes 00E0, so it is dirty, and it leaves the machine running, so it is not
blocked. -/
theorem clsClearsDisplay : Obligations.ClsClearsDisplay := by
  refine ⟨by decide, fun s => ⟨s.setDisp Display.clear, rfl, pixel_clear, frame_setDisp _ _⟩,
    fun s w h => ⟨s.advance.setDisp Display.clear, ?_⟩⟩
  have hrun : (s.advance.setDisp Display.clear).run = .running := h.1
  have hdirty : s.stepDirty = true := stepDirty_iff.2 ⟨w, .inl h⟩
  rw [perform_step (step_of_executes_cls h), outcome_of_running _ hrun, hdirty]

end Sys2Proof.Machine
end

section
/-! Families 1, 2 and B (42_jump_call.md, 45_index_jump_random.md R111): the words that a row of the
opcode map claims, what CALL and the return after it answer, and the statements of that family. -/

namespace Sys2Proof.Machine

/-! ## The words of a row -/

/-- A row whose instructions are all well formed decodes every word that matches it. -/
theorem encodedAs_of_row {k : Nat} {mask pattern : Word} {build : Fields → Instr}
    (hrow : opcodeMap[k]? = some ⟨mask, pattern, build⟩) (hwf : ∀ f, (build f).wellFormed = true) :
    EncodedAs mask pattern build := fun w h =>
  decode_of_matchesWord (List.mem_of_getElem? hrow) (matchesWord_iff.2 h) (hwf (fieldsOf w))

/-! ## Operands as numbers -/

@[simp] theorem toNat_zext16 (nnn : BitVec 12) : (zext16 nnn).toNat = nnn.toNat :=
  BitVec.toNat_setWidth_of_le (by decide)

@[simp] theorem toNat_widen (b : Byte) : (widen b).toNat = b.toNat :=
  BitVec.toNat_setWidth_of_le (by decide)

/-! ## The execute phase of CALL -/

/-- With SP < 16, CALL fills the next slot with the PC the fetch left and jumps (R93). -/
theorem exec_call_of_lt {s : State} (nnn : BitVec 12) (h : s.sp.val < 16) :
    exec (.call nnn) s = .next ((s.setStack ⟨s.sp.val + 1, by omega⟩
      (s.stack.set s.sp.val s.pc)).setPC (zext16 nnn)) := by
  simp only [exec, execCall, push_of_lt s.pc h]

/-- A step that executes CALL on the full stack takes the fault with the word it fetched (R93). -/
theorem step_of_executes_call_of_full {s : State} {w : Word} {nnn : BitVec 12}
    (h : s.Executes w (.call nnn)) (hsp : s.sp.val = 16) :
    step s = .next (s.faultedWith .stackOverflow (some w) none) := by
  have hpush : s.advance.push s.advance.pc = none := push_of_full _ hsp
  have hword : encode (.call nnn) = w := encode_of_decode h.2.2
  simp only [step_of_executes h, exec, execCall, hpush, raiseIn_advance, hword]

/-- A write to one stack entry, read at every entry. -/
theorem getElem_stack_set {stack : Vector Word 16} {i : Nat} (hi : i < 16) (w : Word) (j : Fin 16) :
    (stack.set i w)[j.val] = if j.val = i then w else stack[j.val] := by
  simp only [Vector.getElem_set, eq_comm]

/-- Settles O16: by the depth of the stack, the push or the fault. -/
theorem callPushesReturnAddress : Obligations.CallPushesReturnAddress := by
  refine ⟨encodedAs_of_row (k := 4) rfl fun _ => rfl, fun nnn s h => ?_,
    fun s w nnn => step_of_executes_call_of_full⟩
  exact ⟨_, exec_call_of_lt nnn h, rfl, toNat_zext16 nnn, getElem_stack_set h s.pc,
    (frame_setStack s _ _).trans (frame_setPC _ _)⟩

/-! ## CALL, then RET at its target -/

/-- The return pops the entry that the call filled: of the call, only that entry is left (R24). -/
theorem exec_ret_after_call {s t : State} {nnn : BitVec 12} (h : s.sp.val < 16)
    (ht : exec (.call nnn) s = .next t) :
    exec .ret t.advance = .next (s.setStack s.sp (s.stack.set s.sp.val s.pc)) := by
  rw [exec_call_of_lt nnn h, Host.Outcome.next.injEq] at ht
  subst ht
  rw [exec_ret_of_pos (Nat.succ_pos _), Host.Outcome.next.injEq]
  have hpop : (s.stack.set s.sp.val s.pc)[s.sp.val] = s.pc := Vector.getElem_set_self h
  -- SP is back, and PC is the popped entry, which is the PC of `s`.
  exact congrArg (State.setPC (s.setStack s.sp (s.stack.set s.sp.val s.pc))) hpop

/-- A write of the stack's entries at the depth it has. -/
theorem frame_setStack_same_sp (s : State) (k : Vector Word 16) :
    Frame [.stack] s (s.setStack s.sp k) := by
  constructor <;> simp

/-- Settles O17: after the return, the state before the call but for the entry the call filled. -/
theorem callThenReturnComesBack : Obligations.CallThenReturnComesBack := by
  intro nnn s h
  have hcall := exec_call_of_lt nnn h
  exact ⟨_, _, hcall, exec_ret_after_call h hcall, rfl, rfl, getElem_stack_set h s.pc,
    frame_setStack_same_sp s _⟩

/-! ## Jumps -/

/-- The indexed jump needs no reduction: its target is at most 0x0FFF + 0xFF (R111). -/
theorem toNat_zext16_add_widen (nnn : BitVec 12) (b : Byte) :
    (zext16 nnn + widen b).toNat = nnn.toNat + b.toNat := by
  have hnnn : nnn.toNat < 4096 := nnn.isLt
  have hb : b.toNat < 256 := b.isLt
  rw [BitVec.toNat_add, toNat_zext16, toNat_widen]
  exact Nat.mod_eq_of_lt (by omega)

/-- Settles O18: the two jumps write PC only, and neither target is reduced. -/
theorem jumpsSetPc : Obligations.JumpsSetPc := by
  refine ⟨encodedAs_of_row (k := 3) rfl fun _ => rfl, encodedAs_of_row (k := 21) rfl fun _ => rfl,
    fun nnn s => ?_, fun nnn s => ?_⟩
  · exact ⟨s.setPC (zext16 nnn), rfl, toNat_zext16 nnn, frame_setPC s _⟩
  · exact ⟨s.setPC (zext16 nnn + widen (s.getV 0)), rfl, toNat_zext16_add_widen nnn _,
      frame_setPC s _⟩

end Sys2Proof.Machine
end

section
/-! Skips, loads and ADD Vx, kk (43_skip_load_add.md, 48_f_family.md R119): where a skip leaves PC, and
the statements of that family. -/

namespace Sys2Proof.Machine

/-! ## Where a skip leaves PC -/

theorem skipIf_pc (s : State) (c : Bool) :
    (s.skipIf c).pc = if c = true then s.pc + 2 else s.pc := by
  cases c
  · rfl
  · rfl

theorem skipIf_beq_pc (s : State) (a b : Byte) :
    (s.skipIf (a == b)).pc = if a = b then s.pc + 2 else s.pc := by
  simp only [skipIf_pc, beq_iff_eq]

theorem skipIf_bne_pc (s : State) (a b : Byte) :
    (s.skipIf (a != b)).pc = if a = b then s.pc else s.pc + 2 := by
  simp only [skipIf_pc, bne_iff_ne, ite_not]

/-! ## Skips -/

/-- Settles O19: each skip writes PC only, by its test on V[x] and kk. -/
theorem byteSkips : Obligations.ByteSkips := by
  refine ⟨encodedAs_of_row (k := 5) rfl fun _ => rfl, encodedAs_of_row (k := 6) rfl fun _ => rfl,
    fun x kk s => ?_, fun x kk s => ?_⟩
  · exact ⟨s.skipIf (s.getV x == kk), rfl, skipIf_beq_pc s _ kk, frame_skipIf s _⟩
  · exact ⟨s.skipIf (s.getV x != kk), rfl, skipIf_bne_pc s _ kk, frame_skipIf s _⟩

/-- In families 5 and 9 a low nibble other than 0 selects nothing (R69). -/
theorem decode_of_families5and9 {w : Word} (h : w >>> 12 = 0x5 ∨ w >>> 12 = 0x9)
    (hn : w &&& 0xF ≠ 0) : decode w = .unknown w := by
  obtain h5 | h9 := h
  · exact (unknownWordsByFamily w).2 (.inl ⟨h5, hn⟩)
  · exact (unknownWordsByFamily w).2 (.inr (.inr (.inl ⟨h9, hn⟩)))

/-- Settles O20: each skip writes PC only, by its test on V[x] and V[y]; the unknown words of the two
families are among those of O5. -/
theorem registerSkips : Obligations.RegisterSkips := by
  refine ⟨encodedAs_of_row (k := 7) rfl fun _ => rfl, encodedAs_of_row (k := 19) rfl fun _ => rfl,
    fun _ => decode_of_families5and9, fun x y s => ?_, fun x y s => ?_⟩
  · exact ⟨s.skipIf (s.getV x == s.getV y), rfl, skipIf_beq_pc s _ _, frame_skipIf s _⟩
  · exact ⟨s.skipIf (s.getV x != s.getV y), rfl, skipIf_bne_pc s _ _, frame_skipIf s _⟩

/-! ## Loads and ADD Vx, kk -/

/-- A write of one register: the register reads the byte, and nothing else changes. -/
theorem setV_getV_and_frame (s : State) (x : Reg) (b : Byte) :
    (s.setV x b).getV x = b ∧ Frame [.v x] s (s.setV x b) :=
  ⟨s.getV_setV_self x b, frame_setV s x b⟩

/-- Settles O22: each load is one register write, of the immediate, of V[y] or of DT. -/
theorem loadsWriteDestination : Obligations.LoadsWriteDestination := by
  refine ⟨encodedAs_of_row (k := 8) rfl fun _ => rfl, encodedAs_of_row (k := 10) rfl fun _ => rfl,
    encodedAs_of_row (k := 26) rfl fun _ => rfl, fun x kk s => ?_, fun x y s => ?_, fun x s => ?_⟩
  · exact ⟨s.setV x kk, rfl, setV_getV_and_frame s x kk⟩
  · exact ⟨s.setV x (s.getV y), rfl, setV_getV_and_frame s x _⟩
  · exact ⟨s.setV x s.dt, rfl, setV_getV_and_frame s x _⟩

/-- Settles O23: the addition is one register write, of the byte sum, and so of no flag. -/
theorem addByteHasNoFlag : Obligations.AddByteHasNoFlag := by
  refine ⟨encodedAs_of_row (k := 9) rfl fun _ => rfl, fun x kk s => ?_⟩
  have hsum : ((s.setV x (s.getV x + kk)).getV x).toNat = ((s.getV x).toNat + kk.toNat) % 256 := by
    rw [State.getV_setV_self, BitVec.toNat_add]
  exact ⟨s.setV x (s.getV x + kk), rfl, hsum, frame_setV s x _⟩

end Sys2Proof.Machine
end

section
/-! Family 8, the ALU (44_alu.md): what the two writes of R100 leave in V[x] and VF, the results and
flags as numbers, and the statements of that family. -/

namespace Sys2Proof.Machine

/-! ## The result and the flag -/

/-- After the two writes VF is the flag, whatever x is (R100). -/
@[simp] theorem getV_vf_setResultAndFlag (s : State) (x : Reg) (r f : Byte) :
    (s.setResultAndFlag x r f).getV vf = f := by
  rw [getV_setResultAndFlag, if_pos rfl]

/-- A destination other than VF keeps the result through the write of the flag (R100). -/
theorem getV_setResultAndFlag_self (s : State) {x : Reg} (r f : Byte) (h : x ≠ vf) :
    (s.setResultAndFlag x r f).getV x = r := by
  rw [getV_setResultAndFlag, if_neg h, if_pos rfl]

theorem flagByte_decide (p : Prop) [Decidable p] : flagByte (decide p) = if p then 1 else 0 := by
  simp only [flagByte, decide_eq_true_eq]

theorem carryFlag_eq (a b : Byte) :
    carryFlag a b = if a.toNat + b.toNat > 255 then 1 else 0 := flagByte_decide _

theorem notBorrowFlag_eq (m n : Byte) :
    notBorrowFlag m n = if m.toNat ≥ n.toNat then 1 else 0 := flagByte_decide _

/-! ## Results and flags as numbers -/

/-- A byte difference is the integer difference mod 256, also where it borrows (R106, R108). -/
theorem toNat_byte_sub (m n : Byte) : ((m - n).toNat : Int) = (m.toNat - n.toNat : Int) % 256 := by
  have hn : n.toNat < 256 := n.isLt
  rw [BitVec.toNat_sub]
  omega

theorem toNat_shiftRight_one (a : Byte) : (a >>> 1).toNat = a.toNat / 2 := by
  rw [BitVec.toNat_ushiftRight, Nat.shiftRight_eq_div_pow, pow_one]

theorem toNat_shiftLeft_one (a : Byte) : (a <<< 1).toNat = a.toNat * 2 % 256 := by
  rw [BitVec.toNat_shiftLeft, Nat.shiftLeft_eq, pow_one]

/-- SHR shifts out bit 0 (R107). -/
theorem toNat_shiftRightFlag (a : Byte) : (shiftRightFlag a).toNat = a.toNat % 2 :=
  (BitVec.toNat_and a 1).trans (Nat.and_one_is_mod a.toNat)

/-- SHL shifts out bit 7 (R109). -/
theorem toNat_shiftLeftFlag (a : Byte) : (shiftLeftFlag a).toNat = a.toNat / 128 := by
  rw [shiftLeftFlag, BitVec.toNat_ushiftRight, Nat.shiftRight_eq_div_pow]

/-! ## ADD, SUB and SUBN -/

/-- Settles O25: the sum, then the carry. -/
theorem addSetsSumAndCarry : Obligations.AddSetsSumAndCarry := by
  refine ⟨encodedAs_of_row (k := 14) rfl fun _ => rfl, fun x y s => ⟨_, rfl, fun hx => ?_, ?_,
    frame_setResultAndFlag s x _ _⟩⟩
  · rw [getV_setResultAndFlag_self s _ _ hx, BitVec.toNat_add]
  · rw [getV_vf_setResultAndFlag, carryFlag_eq]

/-- The writes of a subtraction, for any minuend and subtrahend. -/
theorem setResultAndFlag_difference (s : State) (x : Reg) (m n : Byte) :
    (x ≠ vf → (((s.setResultAndFlag x (m - n) (notBorrowFlag m n)).getV x).toNat : Int)
      = (m.toNat - n.toNat : Int) % 256) ∧
    (s.setResultAndFlag x (m - n) (notBorrowFlag m n)).getV vf
      = (if m.toNat ≥ n.toNat then 1 else 0) ∧
    Frame [.v x, .v vf] s (s.setResultAndFlag x (m - n) (notBorrowFlag m n)) := by
  refine ⟨fun hx => ?_, ?_, frame_setResultAndFlag s x _ _⟩
  · rw [getV_setResultAndFlag_self s _ _ hx, toNat_byte_sub]
  · rw [getV_vf_setResultAndFlag, notBorrowFlag_eq]

/-- Settles O26: SUB and SUBN are the same two writes with minuend and subtrahend exchanged. -/
theorem subtractsSetNotBorrow : Obligations.SubtractsSetNotBorrow := by
  refine ⟨encodedAs_of_row (k := 15) rfl fun _ => rfl, encodedAs_of_row (k := 17) rfl fun _ => rfl,
    fun x y s => ?_, fun x y s => ?_⟩
  · exact ⟨_, rfl, setResultAndFlag_difference s x (s.getV x) (s.getV y)⟩
  · exact ⟨_, rfl, setResultAndFlag_difference s x (s.getV y) (s.getV x)⟩

/-! ## SHR and SHL -/

/-- A value that is V[y] under SHIFT_SOURCE = VY and V[x] under VX is the shift's operand. -/
theorem shiftOperand_eq {s : State} {x y : Reg} {a : Byte} (hvy : s.cfg.shift = .vy → a = s.getV y)
    (hvx : s.cfg.shift = .vx → a = s.getV x) : s.shiftOperand x y = a := by
  unfold State.shiftOperand
  split
  next h => exact (hvy h).symm
  next h => exact (hvx h).symm

/-- Settles O27: the shifted operand, then the bit shifted out, for either shift source. -/
theorem shiftsSetBitShiftedOut : Obligations.ShiftsSetBitShiftedOut := by
  refine ⟨encodedAs_of_row (k := 16) rfl fun _ => rfl, encodedAs_of_row (k := 18) rfl fun _ => rfl,
    fun x y s a hvy hvx => ?_⟩
  obtain rfl : s.shiftOperand x y = a := shiftOperand_eq hvy hvx
  constructor
  · refine ⟨_, rfl, fun hx => ?_, ?_, frame_setResultAndFlag s x _ _⟩
    · rw [getV_setResultAndFlag_self s _ _ hx, toNat_shiftRight_one]
    · rw [getV_vf_setResultAndFlag, toNat_shiftRightFlag]
  · refine ⟨_, rfl, fun hx => ?_, ?_, frame_setResultAndFlag s x _ _⟩
    · rw [getV_setResultAndFlag_self s _ _ hx, toNat_shiftLeft_one]
    · rw [getV_vf_setResultAndFlag, toNat_shiftLeftFlag]

/-! ## OR, AND and XOR -/

/-- Settles O24: each operation is one register write, of a value that is bitwise by its bits. -/
theorem logicIsBitwise : Obligations.LogicIsBitwise := by
  refine ⟨encodedAs_of_row (k := 11) rfl fun _ => rfl, encodedAs_of_row (k := 12) rfl fun _ => rfl,
    encodedAs_of_row (k := 13) rfl fun _ => rfl, fun x y s => ?_, fun x y s => ?_, fun x y s => ?_⟩
  · refine ⟨_, rfl, frame_setV s x _, fun b => ?_⟩
    rw [State.getV_setV_self, BitVec.getLsbD_or]
  · refine ⟨_, rfl, frame_setV s x _, fun b => ?_⟩
    rw [State.getV_setV_self, BitVec.getLsbD_and]
  · refine ⟨_, rfl, frame_setV s x _, fun b => ?_⟩
    rw [State.getV_setV_self, BitVec.getLsbD_xor]

end Sys2Proof.Machine
end

section
/-! Address register, indexed jump and random (45_index_jump_random.md; 48_f_family.md R123, R124): the
bounds of PC and of the return addresses, and the statements of that family. -/

namespace Sys2Proof.Machine

/-! ## Bounds of PC and of the return addresses -/

/-- Under ADDR_POLICY = fault both bytes of an executed word lie in the store. -/
theorem pc_le_of_executes {s : State} {w : Word} {i : Instr} (hp : s.cfg.addrPolicy = .fault)
    (h : s.Executes w i) : s.pc.toNat ≤ 0xFFE := by
  obtain hlt | hwrap := (readable_of_fetch h.2.1).2
  · omega
  · rw [hp] at hwrap
    cases hwrap

/-- A skip leaves PC at most two words after the address of the instruction. -/
theorem advance_skipIf_pc_le (s : State) (c : Bool) :
    (s.advance.skipIf c).pc.toNat ≤ s.pc.toNat + 4 := by
  rw [advance_skipIf_pc]
  split
  · bv_omega
  · bv_omega

/-- An instruction at 0xFFE or below leaves PC at most 0x10FE, the highest target of Bnnn, when no
return address is above 0x1000 (R91, R111). -/
theorem effect_pc_le {s t : State} {i : Instr} (h : Effect s t i) (hpc : s.pc.toNat ≤ 0xFFE)
    (hstack : ∀ j : Fin 16, s.stack[j.val].toNat ≤ 0x1000) : t.pc.toNat ≤ 0x10FE := by
  cases i
  case ret =>
    obtain ⟨hsp, n, -, rfl⟩ := h
    exact (hstack ⟨s.sp.val - 1, by omega⟩).trans (by decide)
  case jp nnn =>
    subst h
    exact (toNat_zext16 nnn).trans_le (by omega)
  case call nnn =>
    obtain ⟨-, n, -, rfl⟩ := h
    exact (toNat_zext16 nnn).trans_le (by omega)
  case jpV0 nnn =>
    subst h
    exact (toNat_zext16_add_widen nnn _).trans_le (by omega)
  case seByte | sneByte | seReg | sneReg | skp | sknp =>
    subst h
    exact (advance_skipIf_pc_le s _).trans (by omega)
  all_goals
    rw [effect_pc_of_not_mem h (by simp [partsWritten])]
    bv_omega

/-- A completed instruction keeps the stack's entries, or it is a CALL and fills one with the address
of the next word (10_state.md R24). -/
theorem effect_stack_cases {s t : State} {i : Instr} (h : Effect s t i) :
    t.stack = s.stack ∨ ∃ hsp : s.sp.val < 16, t.stack = s.stack.set s.sp.val (s.pc + 2) := by
  by_cases hmem : Part.stack ∈ partsWritten i
  · obtain ⟨nnn, rfl⟩ := stack_mem_partsWritten hmem
    obtain ⟨hsp, n, -, rfl⟩ := h
    exact .inr ⟨hsp, rfl⟩
  · exact .inl ((effect_frame h).stack hmem)

/-- The return address of a CALL at 0xFFE or below is at most 0x1000 (R93). -/
theorem effect_stack_le {s t : State} {i : Instr} (h : Effect s t i) (hpc : s.pc.toNat ≤ 0xFFE)
    (hstack : ∀ j : Fin 16, s.stack[j.val].toNat ≤ 0x1000) (j : Fin 16) :
    t.stack[j.val].toNat ≤ 0x1000 := by
  obtain hkeep | ⟨hsp, hpush⟩ := effect_stack_cases h
  · simpa only [hkeep] using hstack j
  · simp only [hpush, getElem_stack_set hsp]
    split
    · bv_omega
    · exact hstack j

/-- Settles O53: an idle or faulting step keeps PC and the stack, and an executed instruction was
fetched at 0xFFE or below. -/
theorem stepKeepsPcInBounds : Obligations.StepKeepsPcInBounds := by
  intro s t hs h hp
  rw [(step_key_cfg h).2] at hp
  obtain ⟨-, rfl⟩ | ⟨-, -, k, w, m, rfl⟩ | ⟨w, i, hex, he⟩ := step_cases h
  · exact hs hp
  · exact hs hp
  · obtain ⟨k, m, rfl⟩ | heff := exec_cases he
    · exact hs hp
    · have hpc := pc_le_of_executes hp hex
      have hstack := (hs hp).2
      exact ⟨effect_pc_le heff hpc hstack, effect_stack_le heff hpc hstack⟩

/-! ## Writes of I -/

/-- The low nibble is the value mod 16 (48_f_family.md R124). -/
theorem val_lowNibble (b : Byte) : (lowNibble b).val = b.toNat % 16 :=
  congrArg (· % 16) (Nat.shiftRight_zero (n := b.toNat))

/-- The address of a glyph needs no reduction: FONT_BASE is at most 432 (48_f_family.md R124). -/
theorem toNat_glyphAddr (s : State) (x : Reg) :
    (s.glyphAddr x).toNat = s.cfg.fontBase.val + 5 * ((s.getV x).toNat % 16) := by
  rw [State.glyphAddr, val_lowNibble, BitVec.toNat_ofNat]
  exact Nat.mod_eq_of_lt (by omega)

/-- Settles O28: each of the three instructions is one write of I. -/
theorem addressRegisterWrites : Obligations.AddressRegisterWrites := by
  refine ⟨encodedAs_of_row (k := 20) rfl fun _ => rfl, encodedAs_of_row (k := 30) rfl fun _ => rfl,
    encodedAs_of_row (k := 31) rfl fun _ => rfl, fun nnn s => ?_, fun x s => ?_, fun x s => ?_⟩
  · exact ⟨s.setI (zext16 nnn), rfl, toNat_zext16 nnn, frame_setI s _⟩
  · have hsum : (s.I + widen (s.getV x)).toNat = (s.I.toNat + (s.getV x).toNat) % 65536 := by
      rw [BitVec.toNat_add, toNat_widen]
    exact ⟨s.setI (s.I + widen (s.getV x)), rfl, hsum, frame_setI s _⟩
  · exact ⟨s.setI (s.glyphAddr x), rfl, toNat_glyphAddr s x, frame_setI s _⟩

/-! ## RND -/

/-- Settles O30: the execute phase is a write of V[x] and a count of the draw, whatever byte the draw
gives. -/
theorem randomIsMasked : Obligations.RandomIsMasked := by
  refine ⟨encodedAs_of_row (k := 22) rfl fun _ => rfl, fun x kk s =>
    ⟨(s.setV x (s.nextRandom &&& kk)).countDraw, rfl, ?_, rfl,
      (frame_setV s x _).trans (frame_countDraw _)⟩⟩
  exact s.getV_setV_self x (s.nextRandom &&& kk)

end Sys2Proof.Machine
end

section
/-! Family D (46_draw.md): what DRW answers when the rows are readable and when they are not, what it
does to a pixel and to VF, and the statements of that family. -/

namespace Sys2Proof.Machine

/-! ## The sprite -/

/-- The `n` sprite rows at I, in the order DRW reads them. -/
def State.spriteRows (s : State) (n : Fin 16) : List Byte := (List.range n.val).map s.spriteRow

/-- The display and the collision after the sprite loop of DRW Vx, Vy, n. -/
def State.drawn (s : State) (x y : Reg) (n : Fin 16) : Blit :=
  Blit.rows ⟨s.disp, false⟩ ((s.getV x).toNat % 64) ((s.getV y).toNat % 32) 0 (s.spriteRows n)

@[simp] theorem length_spriteRows (s : State) (n : Fin 16) : (s.spriteRows n).length = n.val := by
  simp [State.spriteRows]

@[simp] theorem getElem_spriteRows (s : State) (n : Fin 16) (r : Nat)
    (h : r < (s.spriteRows n).length) : (s.spriteRows n)[r] = s.spriteRow r := by
  simp [State.spriteRows]

/-- A pixel changes exactly when the sprite covers it, and there is a collision exactly when the sprite
collides. -/
theorem drawn_spec (s : State) (x y : Reg) (n : Fin 16) :
    (∀ px py, (s.drawn x y n).disp.pixel px py ≠ s.disp.pixel px py ↔ s.SpriteCovers x y n px py) ∧
    ((s.drawn x y n).collision = true ↔ s.SpriteCollides x y n) := by
  have hlen : (s.spriteRows n).length ≤ 32 := by
    rw [length_spriteRows]
    omega
  have hrows := rows_spec ⟨s.disp, false⟩ ((s.getV x).toNat % 64) ((s.getV y).toNat % 32) hlen
  simp only [length_spriteRows, getElem_spriteRows, exists_prop, Bool.false_eq_true,
    false_or] at hrows
  exact hrows

/-- A sprite with a nonzero row covers some pixel. -/
theorem exists_spriteCovers {s : State} {n : Fin 16} {r : Nat} (x y : Reg) (hr : r < n.val)
    (hrow : s.spriteRow r ≠ 0) : ∃ px py, s.SpriteCovers x y n px py := by
  obtain ⟨i, hi, hbit⟩ : ∃ i, i < 8 ∧ (s.spriteRow r).getLsbD i = true := by
    by_contra hnone
    simp only [not_exists, not_and, Bool.not_eq_true] at hnone
    exact hrow (BitVec.eq_of_getLsbD_eq fun i hi => by simpa using hnone i hi)
  refine ⟨column ((s.getV x).toNat % 64) (7 - i), rowOf ((s.getV y).toNat % 32) r, r, 7 - i, hr,
    by omega, ?_, rfl, rfl⟩
  rwa [show 7 - (7 - i) = i by omega]

/-- A sprite whose rows are all 0 covers no pixel. -/
theorem not_spriteCovers_of_blank {s : State} {x y : Reg} {n : Fin 16} {px : Fin 64} {py : Fin 32}
    (hblank : ∀ r, r < n.val → s.spriteRow r = 0) : ¬ s.SpriteCovers x y n px py := by
  rintro ⟨r, c, hr, -, hbit, -, -⟩
  rw [hblank r hr] at hbit
  simp at hbit

/-! ## The execute phase of DRW -/

/-- With every row readable, DRW stores the display of the sprite loop and then the collision. -/
theorem exec_drw_of_readable {s : State} (x y : Reg) {n : Fin 16}
    (h : ∀ r, r < n.val → s.Readable (s.I.toNat + r)) :
    exec (.drw x y n) s = .next ((s.setDisp (s.drawn x y n).disp).setV vf
      (collisionFlag (s.drawn x y n).collision)) := by
  simp only [exec, execDrw, readBlock_of_readable h]
  rfl

/-- What a draw with every row readable does: it flips the covered pixels and sets VF to whether the
sprite collides (R113 to R115). -/
theorem exec_drw_spec {s : State} (x y : Reg) {n : Fin 16}
    (h : ∀ r, r < n.val → s.Readable (s.I.toNat + r)) :
    ∃ t, exec (.drw x y n) s = .next t ∧
      (∀ px py, t.disp.pixel px py ≠ s.disp.pixel px py ↔ s.SpriteCovers x y n px py) ∧
      (s.SpriteCollides x y n → t.getV vf = 1) ∧ (¬ s.SpriteCollides x y n → t.getV vf = 0) ∧
      Frame [.disp, .v vf] s t := by
  obtain ⟨hpixel, hcollision⟩ := drawn_spec s x y n
  refine ⟨_, exec_drw_of_readable x y h, hpixel, fun hc => ?_, fun hc => ?_,
    (frame_setDisp s _).trans (frame_setV _ vf _)⟩
  · rw [State.getV_setV_self, collisionFlag, flagByte_eq_one, hcollision]
    exact hc
  · rw [State.getV_setV_self, collisionFlag, flagByte_eq_zero, Bool.eq_false_iff, ne_eq, hcollision]
    exact hc

/-- Settles O31: the row of DRW decodes, and the draw flips the covered pixels. -/
theorem drawXorsSprite : Obligations.DrawXorsSprite :=
  ⟨encodedAs_of_row (k := 23) rfl fun _ => rfl, fun x y _ _ h => exec_drw_spec x y h⟩

/-- Settles O32: the rows are read before any pixel changes, so the first address that is not readable
is all the step reports. -/
theorem drawBeyondStoreFaults : Obligations.DrawBeyondStoreFaults := by
  intro s w x y n r hex hr
  have hread : s.advance.readBlock s.advance.I.toNat n.val
      = .error ⟨.memoryOutOfRange, some (s.I.toNat + r)⟩ := readBlock_of_firstUnreadable hr
  have hword : encode (.drw x y n) = w := encode_of_decode hex.2.2
  simp only [step_of_executes hex, exec, execDrw, hread, raiseIn_advance, hword]

/-! ## A second draw at the same position -/

/-- A draw leaves I, memory and the parameters, so the rows are as readable after it. -/
theorem readable_of_frame_draw {s t : State} (hf : Frame [.disp, .v vf] s t) (r : Nat) :
    t.Readable (t.I.toNat + r) ↔ s.Readable (s.I.toNat + r) := by
  rw [State.Readable, State.Readable, hf.I (by decide), hf.cfg]

/-- A draw leaves I and memory, so at an unmoved position the sprite covers the same pixels. -/
theorem spriteCovers_of_frame_draw {s t : State} {x y : Reg} (hf : Frame [.disp, .v vf] s t)
    (hx : t.getV x = s.getV x) (hy : t.getV y = s.getV y) (n : Fin 16) (px : Fin 64) (py : Fin 32) :
    t.SpriteCovers x y n px py ↔ s.SpriteCovers x y n px py := by
  simp only [State.SpriteCovers, State.spriteRow, hf.I (by decide), hf.mem (by decide), hx, hy]

/-- Two flips of a pixel, or none, give it back. -/
theorem bool_eq_of_ne_iff_ne : ∀ {a b c : Bool}, (c ≠ b ↔ b ≠ a) → c = a := by decide

/-- The second draw collides exactly when the sprite covers a pixel that was off before the first:
the first flipped every covered pixel. -/
theorem spriteCollides_after_draw_iff {s t : State} {x y : Reg} {n : Fin 16}
    (hpixel : ∀ px py, t.disp.pixel px py ≠ s.disp.pixel px py ↔ s.SpriteCovers x y n px py)
    (hcover : ∀ px py, t.SpriteCovers x y n px py ↔ s.SpriteCovers x y n px py) :
    t.SpriteCollides x y n ↔ ∃ px py, s.SpriteCovers x y n px py ∧ s.disp.pixel px py = false := by
  refine exists_congr fun px => exists_congr fun py => ?_
  rw [hcover]
  refine and_congr_right fun hc => ?_
  rw [Bool.eq_not.2 ((hpixel px py).2 hc), Bool.not_eq_true']

/-- Settles O33: each draw flips the same pixels, and the VF clauses are the cases of the second draw's
collision. -/
theorem doubleDrawRestores : Obligations.DoubleDrawRestores := by
  intro x y n s t hread ht hx hy
  obtain ⟨t', ht', hpixel, -, -, hf⟩ := exec_drw_spec x y hread
  obtain rfl : t = t' := Host.Outcome.next.inj (ht.symm.trans ht')
  have hcover := spriteCovers_of_frame_draw hf hx hy n
  obtain ⟨u, hu, hpixel', hone, hzero, -⟩ :=
    exec_drw_spec (s := t) x y fun r hr => (readable_of_frame_draw hf r).2 (hread r hr)
  rw [spriteCollides_after_draw_iff hpixel hcover] at hone hzero
  refine ⟨u, hu, fun px py => ?_, hone, fun hlit => hzero ?_, fun hdark hrow => hone ?_,
    fun hblank => hzero ?_⟩
  · exact bool_eq_of_ne_iff_ne (by rw [hpixel', hcover, hpixel])
  · rintro ⟨px, py, hc, hoff⟩
    rw [hlit px py hc] at hoff
    cases hoff
  · obtain ⟨r, hr, hne⟩ := hrow
    obtain ⟨px, py, hc⟩ := exists_spriteCovers x y hr hne
    exact ⟨px, py, hc, hdark px py hc⟩
  · rintro ⟨px, py, hc, -⟩
    exact not_spriteCovers_of_blank hblank hc

end Sys2Proof.Machine
end

section
/-! Skips on a key (47_key_skip.md): which key a register names, and the statement of that family. -/

namespace Sys2Proof.Machine

/-- The key a skip tests is the one whose number is V[x] mod 16 (R117). -/
theorem keyNamedBy_of_mod {s : State} {x : Reg} {k : Fin 16}
    (h : (s.getV x).toNat % 16 = k.val) : s.keyNamedBy x = s.key[k.val] := by
  obtain rfl : lowNibble (s.getV x) = k := Fin.ext ((val_lowNibble _).trans h)
  rfl

/-- Settles O21: each skip writes PC only, by its test on the key that V[x] names. -/
theorem keySkips : Obligations.KeySkips := by
  refine ⟨encodedAs_of_row (k := 24) rfl fun _ => rfl, encodedAs_of_row (k := 25) rfl fun _ => rfl,
    fun x s => ?_, fun x s => ?_⟩
  · refine ⟨s.skipIf (s.keyNamedBy x), rfl, frame_skipIf s _, fun k h => ?_⟩
    rw [skipIf_pc, keyNamedBy_of_mod h]
  · refine ⟨s.skipIf (!s.keyNamedBy x), rfl, frame_skipIf s _, fun k h => ?_⟩
    simp only [skipIf_pc, keyNamedBy_of_mod h, Bool.not_eq_true']

end Sys2Proof.Machine
end

section
/-! Family F (48_f_family.md): the timers, the key wait, the block stores and loads at I, and the
statements of that family, with the key operation that ends a wait (60_exceptions.md R144, R145). -/

namespace Sys2Proof.Machine

/-! ## Timers -/

/-- The tone sounds exactly when ST is not 0 (10_state.md R26). -/
theorem soundActive_iff (s : State) : s.soundActive = true ↔ s.st ≠ 0 := bne_iff_ne

/-- Settles O29: each of the two instructions is one timer write, of V[x]. -/
theorem timerWrites : Obligations.TimerWrites := by
  refine ⟨encodedAs_of_row (k := 28) rfl fun _ => rfl, encodedAs_of_row (k := 29) rfl fun _ => rfl,
    fun x s => ?_, fun x s => ?_⟩
  · exact ⟨s.setDT (s.getV x), rfl, rfl, frame_setDT s _⟩
  · exact ⟨s.setST (s.getV x), rfl, rfl, soundActive_iff _, frame_setST s _⟩

/-! ## Keys -/

/-- After a write of one key, the key reads what was written and every other key as before. -/
theorem getElem_key_setKey (s : State) (k j : Fin 16) (p : Bool) :
    (s.setKey k p).key[j.val] = if j = k then p else s.key[j.val] := by
  simp only [State.setKey_key, Vector.getElem_set, Fin.ext_iff, eq_comm]

/-- A key that is freshly pressed in a wait stores its number and ends the wait (R145). -/
theorem setKeyState_of_completes {s : State} {k : Fin 16} {p : Bool} {x : Reg}
    (h : s.KeyCompletes k p x) : s.setKeyState k.val p
      = .next (((s.setKey k p).setV x (BitVec.ofNat 8 k.val)).setRun .running) := by
  obtain ⟨hrun, rfl, hkey⟩ := h
  simp [State.setKeyState, State.keyChanged, hrun, hkey]

/-- Any other key write is no more than that (R145). -/
theorem setKeyState_of_not_completes {s : State} {k : Fin 16} {p : Bool}
    (h : ∀ x, ¬ s.KeyCompletes k p x) : s.setKeyState k.val p = .next (s.setKey k p) := by
  rw [State.setKeyState, dif_pos k.isLt, Host.Outcome.next.injEq, State.keyChanged]
  split
  · next x hrun =>
    refine if_neg fun hpress => h x ⟨hrun, ?_⟩
    simpa using hpress
  · rfl
  · rfl

/-- `set_key_state` as an operation answers its state and no value. -/
theorem perform_setKeyState {s t : State} {k : Nat} {p : Bool} (h : s.setKeyState k p = .next t) :
    s.perform (.setKeyState k p) = .next (t, .none) := by
  simp only [State.perform, State.keyReply, h]

/-- Settles O34: the execute phase writes the run state only, and the key's number fits a byte. -/
theorem keyWaitStartsAndEnds : Obligations.KeyWaitStartsAndEnds := by
  refine ⟨encodedAs_of_row (k := 27) rfl fun _ => rfl, fun x s => ?_, fun s k x h => ?_⟩
  · exact ⟨s.setRun (.waitingForKey x), rfl, rfl, frame_setRun s _⟩
  · refine ⟨_, perform_setKeyState (setKeyState_of_completes h), rfl, ?_, rfl⟩
    rw [State.getV_setRun, State.getV_setV_self, BitVec.toNat_ofNat]
    exact Nat.mod_eq_of_lt (by omega)

/-- Settles O35, by whether the key completes a wait; a wait names one register. -/
theorem keyStateChanges : Obligations.KeyStateChanges := by
  refine ⟨fun s k p => ?_, fun s k p hk => ?_⟩
  · by_cases hc : ∃ x, s.KeyCompletes k p x
    · obtain ⟨x, hx⟩ := hc
      refine ⟨_, perform_setKeyState (setKeyState_of_completes hx),
        fun j => getElem_key_setKey s k j p, fun y hy => ⟨rfl, fun z => ?_⟩,
        fun hnone => absurd hx (hnone x), rfl⟩
      obtain rfl : x = y := RunState.waitingForKey.inj (hx.1.symm.trans hy.1)
      simp only [State.getV_setRun, State.getV_setV, State.getV_setKey, eq_comm]
    · rw [not_exists] at hc
      exact ⟨_, perform_setKeyState (setKeyState_of_not_completes hc),
        fun j => getElem_key_setKey s k j p, fun x hx => absurd hx (hc x),
        fun _ => ⟨rfl, fun _ => rfl⟩, rfl⟩
  · simp only [State.perform, State.keyReply, State.setKeyState, dif_neg (Nat.not_lt.2 hk)]

/-! ## Block stores -/

/-- A block write with every address writable stores its bytes from `addr` on and changes nothing else
(20_memory.md R50). -/
theorem writeBlock_spec {s : State} {addr : Nat} {bs : List Byte} (hm : s.MemCanonical)
    (hlen : bs.length ≤ 4096) (h : ∀ k, k < bs.length → s.Writable (addr + k)) :
    ∃ t, s.writeBlock addr bs = .ok t ∧ Frame [.mem] s t ∧
      (∀ k, ∀ hk : k < bs.length, t.peek ((addr + k) % 4096) = bs[k]) ∧
      ∀ a, (∀ k, k < bs.length → resolveAddr s.cfg.addrPolicy (addr + k) ≠ .ok a) →
        t.peek a = s.peek a := by
  obtain ⟨m, hw, houtside, -⟩ := writeBlock_of_writable h
  refine ⟨s.setMem m, hw, frame_setMem s m, peek_writeBlock hm hlen h hw, fun a ha => ?_⟩
  refine houtside a fun k hk heq => ha k hk ?_
  rw [resolveAddr_of_readable (h k hk).1, heq]

theorem faultedByWrite_of_not_readable {s : State} {addr : Nat} (w : Word) (h : ¬ s.Readable addr) :
    s.faultedByWrite w addr = s.faultedWith .memoryOutOfRange (some w) (some addr) := by
  obtain ⟨hge, hp, -⟩ := resolveAddr_of_not_readable h
  exact if_pos ⟨hge, hp⟩

theorem faultedByWrite_of_readable {s : State} {addr : Nat} (w : Word) (h : s.Readable addr) :
    s.faultedByWrite w addr = s.faultedWith .reservedWrite (some w) (some (addr % 4096)) := by
  refine if_neg ?_
  rintro ⟨hge, hp⟩
  obtain hlt | hwrap := h
  · omega
  · rw [hp] at hwrap
    cases hwrap

/-- In a step, a block write whose first address that is not writable is `addr + k` raises the fault of
that address (60_exceptions.md R133, R137). -/
theorem writeBlock_advance_error {s : State} {w : Word} {i : Instr} {addr k : Nat} {bs : List Byte}
    (hex : s.Executes w i) (h : s.FirstUnwritable addr bs.length k) :
    ∃ r, s.advance.writeBlock addr bs = .error r ∧
      s.advance.raiseIn i r = s.faultedByWrite w (addr + k) := by
  obtain ⟨r, hr, hcase⟩ := writeBlock_of_firstUnwritable (s := s.advance) h
  refine ⟨r, hr, ?_⟩
  rw [raiseIn_advance, encode_of_decode hex.2.2]
  obtain ⟨hbad, rfl⟩ | ⟨hread, rfl⟩ := hcase
  · exact (faultedByWrite_of_not_readable (s := s) w hbad).symm
  · exact (faultedByWrite_of_readable (s := s) w hread).symm

/-! ## LD B, Vx -/

theorem exec_ldBVx_of_ok {s t : State} {x : Reg}
    (h : s.writeBlock s.I.toNat (bcdDigits (s.getV x)) = .ok t) : exec (.ldBVx x) s = .next t := by
  simp only [exec, execLdBVx, h]

theorem exec_ldBVx_of_error {s : State} {x : Reg} {r : Raise}
    (h : s.writeBlock s.I.toNat (bcdDigits (s.getV x)) = .error r) :
    exec (.ldBVx x) s = .next (s.raiseIn (.ldBVx x) r) := by
  simp only [exec, execLdBVx, h]

@[simp] theorem length_bcdDigits (b : Byte) : (bcdDigits b).length = 3 := rfl

/-- The three digits as numbers: each fits a byte. -/
theorem toNat_bcdDigits (b : Byte) :
    (bcdDigits b)[0].toNat = b.toNat / 100 ∧ (bcdDigits b)[1].toNat = b.toNat / 10 % 10 ∧
      (bcdDigits b)[2].toNat = b.toNat % 10 := by
  have hb : b.toNat < 256 := b.isLt
  simp only [bcdDigits, List.getElem_cons_zero, List.getElem_cons_succ, BitVec.toNat_ofNat]
  omega

/-- Settles O36: the execute phase is one block write of the three digits. -/
theorem bcdStoresDigits : Obligations.BcdStoresDigits := by
  refine ⟨encodedAs_of_row (k := 32) rfl fun _ => rfl, fun x s hm h => ?_, fun s w x k hex h => ?_⟩
  · obtain ⟨t, hw, hframe, hbytes, houtside⟩ :=
      writeBlock_spec (bs := bcdDigits (s.getV x)) hm (by decide : 3 ≤ 4096) h
    obtain ⟨hhundreds, htens, hones⟩ := toNat_bcdDigits (s.getV x)
    exact ⟨t, exec_ldBVx_of_ok hw, hframe,
      (congrArg BitVec.toNat (hbytes 0 (by decide : 0 < 3))).trans hhundreds,
      (congrArg BitVec.toNat (hbytes 1 (by decide : 1 < 3))).trans htens,
      (congrArg BitVec.toNat (hbytes 2 (by decide : 2 < 3))).trans hones, houtside⟩
  · obtain ⟨r, hr, hraise⟩ := writeBlock_advance_error (bs := bcdDigits (s.getV x)) hex h
    rw [step_of_executes hex, exec_ldBVx_of_error hr, hraise]

/-! ## LD [I], Vx -/

theorem exec_ldMemVx_of_ok {s t : State} {x : Reg}
    (h : s.writeBlock s.I.toNat (s.regsUpTo x) = .ok t) : exec (.ldMemVx x) s = .next t := by
  simp only [exec, execLdMemVx, h]

theorem exec_ldMemVx_of_error {s : State} {x : Reg} {r : Raise}
    (h : s.writeBlock s.I.toNat (s.regsUpTo x) = .error r) :
    exec (.ldMemVx x) s = .next (s.raiseIn (.ldMemVx x) r) := by
  simp only [exec, execLdMemVx, h]

@[simp] theorem length_regsUpTo (s : State) (x : Reg) : (s.regsUpTo x).length = x.val + 1 := by
  rw [State.regsUpTo, List.length_take, Vector.length_toList]
  omega

theorem getElem_regsUpTo (s : State) (x j : Reg) (h : j.val < (s.regsUpTo x).length) :
    (s.regsUpTo x)[j.val] = s.getV j := by
  simp [State.regsUpTo, State.getV]

/-- Settles O37: the execute phase is one block write of V0 to Vx. -/
theorem blockStoreCopiesRegisters : Obligations.BlockStoreCopiesRegisters := by
  refine ⟨encodedAs_of_row (k := 33) rfl fun _ => rfl, fun x s hm h => ?_, fun s w x k hex h => ?_⟩
  · have hlen := length_regsUpTo s x
    rw [← hlen] at h
    obtain ⟨t, hw, hframe, hbytes, houtside⟩ := writeBlock_spec hm (by omega) h
    rw [hlen] at houtside
    refine ⟨t, exec_ldMemVx_of_ok hw, hframe, fun j hj => ?_, houtside⟩
    rw [Fin.le_def] at hj
    rw [hbytes j.val (by omega), getElem_regsUpTo]
  · rw [← length_regsUpTo s x] at h
    obtain ⟨r, hr, hraise⟩ := writeBlock_advance_error hex h
    rw [step_of_executes hex, exec_ldMemVx_of_error hr, hraise]

/-! ## LD Vx, [I] -/

/-- The `n` bytes at I, in the order a block load reads them (R127). -/
def State.bytesAtI (s : State) (n : Nat) : List Byte :=
  (List.range n).map fun j => s.peek ((s.I.toNat + j) % 4096)

@[simp] theorem length_bytesAtI (s : State) (n : Nat) : (s.bytesAtI n).length = n := by
  simp [State.bytesAtI]

@[simp] theorem getElem_bytesAtI (s : State) (n j : Nat) (h : j < (s.bytesAtI n).length) :
    (s.bytesAtI n)[j] = s.peek ((s.I.toNat + j) % 4096) := by
  simp [State.bytesAtI]

theorem exec_ldVxMem_of_readable {s : State} {x : Reg}
    (h : ∀ k, k < x.val + 1 → s.Readable (s.I.toNat + k)) :
    exec (.ldVxMem x) s = .next (s.loadRegs 0 (s.bytesAtI (x.val + 1))) := by
  simp only [exec, execLdVxMem, readBlock_of_readable h]
  rfl

/-- After the load of the bytes at I, V0 to Vx read theirs and the other registers as before. -/
theorem getV_loadRegs_bytesAtI (s : State) (x j : Reg) :
    (s.loadRegs 0 (s.bytesAtI (x.val + 1))).getV j
      = if j ≤ x then s.peek ((s.I.toNat + j.val) % 4096) else s.getV j := by
  obtain ⟨v, hv, hreg⟩ := loadRegs_eq s 0 (s.bytesAtI (x.val + 1))
  have hin : 0 ≤ j.val ∧ j.val < x.val + 1 ↔ j ≤ x := by
    rw [Fin.le_def]
    omega
  simp only [hv, hreg, length_bytesAtI, getElem_bytesAtI, Nat.sub_zero, dite_eq_ite, hin]

/-- A frame holds with any longer list of parts. -/
theorem Frame.mono {ps qs : List Part} {s t : State} (h : Frame ps s t) (hsub : ps ⊆ qs) :
    Frame qs s t where
  v x hp := h.v x (mt (@hsub _) hp)
  I hp := h.I (mt (@hsub _) hp)
  pc hp := h.pc (mt (@hsub _) hp)
  sp hp := h.sp (mt (@hsub _) hp)
  stack hp := h.stack (mt (@hsub _) hp)
  dt hp := h.dt (mt (@hsub _) hp)
  st hp := h.st (mt (@hsub _) hp)
  mem hp := h.mem (mt (@hsub _) hp)
  disp hp := h.disp (mt (@hsub _) hp)
  run hp := h.run (mt (@hsub _) hp)
  draws hp := h.draws (mt (@hsub _) hp)
  key := h.key
  cyc := h.cyc
  cfg := h.cfg

theorem regsThrough_subset (x : Reg) : regsThrough x ⊆ (List.finRange 16).map .v :=
  List.map_subset _ List.filter_sublist.subset

/-- Settles O38: the execute phase reads the block, then loads it into V0 to Vx; the first address that
is not readable is all a step reports. -/
theorem blockLoadCopiesMemory : Obligations.BlockLoadCopiesMemory := by
  refine ⟨encodedAs_of_row (k := 34) rfl fun _ => rfl, fun x s h => ?_, fun s w x k hex h => ?_⟩
  · exact ⟨_, exec_ldVxMem_of_readable h, getV_loadRegs_bytesAtI s x,
      (frame_loadRegs s x (length_bytesAtI s _)).mono (regsThrough_subset x)⟩
  · have hread : s.advance.readBlock s.advance.I.toNat (x.val + 1)
        = .error ⟨.memoryOutOfRange, some (s.I.toNat + k)⟩ := readBlock_of_firstUnreadable h
    have hword : encode (.ldVxMem x) = w := encode_of_decode hex.2.2
    simp only [step_of_executes hex, exec, execLdVxMem, hread, raiseIn_advance, hword]

end Sys2Proof.Machine
end

section
/-! Exceptions and the host's views (60_exceptions.md): precise faults, the tick, the views, and the
statements of that family. -/

namespace Sys2Proof.Machine

/-! ## Faults -/

/-- Settles O39: what `run_for` already rests on, that the cycle and every execute phase answer. -/
theorem stepAlwaysAnswers : Obligations.StepAlwaysAnswers := step_answers

/-- Taking a fault changes `run` only, and the record holds PC (R128, R133). -/
theorem faultedWith_precise {s : State} {k : Fault} {w : Option Word} {m : Option Nat}
    {f : FaultRecord} (h : (s.faultedWith k w m).run = .faulted f) :
    s.faultedWith k w m = { s with run := .faulted f } ∧ f.addr = s.pc := by
  cases h
  exact ⟨rfl, rfl⟩

/-- Settles O40: from Running a step faults only by taking a fault at its start state, since a completed
execute phase never ends in one. -/
theorem faultsArePrecise : Obligations.FaultsArePrecise := by
  intro s t f hr h hf
  obtain ⟨hr', -⟩ | ⟨-, -, k, w, m, rfl⟩ | ⟨w, i, -, he⟩ := step_cases h
  · exact absurd hr hr'
  · exact faultedWith_precise hf
  · obtain ⟨k, m, rfl⟩ | heff := exec_cases he
    · exact faultedWith_precise hf
    · exact absurd hf (effect_not_faulted hr heff f)

/-! ## The tick -/

theorem tick_of_faulted {s : State} {f : FaultRecord} (h : s.run = .faulted f) : s.tick = s := by
  simp only [State.tick, h]

/-- Settles O56: in Faulted the tick does nothing, and otherwise it is one decrement of each timer. -/
theorem tickDecrementsTimers : Obligations.TickDecrementsTimers := by
  refine fun s => ⟨fun f hf => ?_, fun hf => ?_⟩
  · simp only [State.perform, tick_of_faulted hf]
  · refine ⟨s.tick, rfl, ?_⟩
    rw [tick_of_not_faulted hf]
    exact ⟨toNat_timerTick _, toNat_timerTick _, (frame_setDT s _).trans (frame_setST _ _)⟩

/-! ## The views -/

@[simp] theorem length_dump (s : State) : s.dump.length = 2048 := by
  simp [State.dump]

theorem getElem_dump (s : State) (j : Nat) (h : j < s.dump.length) :
    s.dump[j] = wordOfBytes (s.peek (2 * j)) (s.peek (2 * j + 1)) := by
  simp [State.dump]

/-- Settles O60: each view answers the state it is given, with its value. -/
theorem viewsReadState : Obligations.ViewsReadState := fun s =>
  ⟨rfl, ⟨s.soundActive, rfl, soundActive_iff s⟩, s.dump, rfl, length_dump s,
    fun j h => by rw [getElem_dump, toNat_wordOfBytes]⟩

end Sys2Proof.Machine
end

section
/-! Reset and load (70_reset_and_hazards.md): the contents of the reset memory, the bytes of a loaded
image, and the statements of that family. -/

namespace Sys2Proof.Machine

/-! ## Reset -/

theorem length_fontBytes : fontBytes.length = 80 := rfl

/-- Outside the 80 bytes of the font an address reads, unlisted, as 0 (10_state.md R35). -/
theorem unlisted_eq_zero {base : Fin 433} {a : Nat} (h : a < base.val ∨ base.val + 80 ≤ a) :
    Memory.unlisted base a = 0 := by
  unfold Memory.unlisted
  split_ifs with horigin hbase
  · have hend : fontBytes.length ≤ a - base.val := by
      rw [length_fontBytes]
      omega
    rw [List.getElem?_eq_none hend, Option.getD_none]
  · rfl
  · rfl

/-- `reset()` puts every field at its reset value, from any state (R151). -/
theorem resetAgain_isReset (s : State) : s.resetAgain.IsReset where
  v x := Vector.getElem_replicate x.isLt
  I := rfl
  pc := rfl
  sp := rfl
  stack j := Vector.getElem_replicate j.isLt
  dt := rfl
  st := rfl
  glyphs j := unlisted_glyph s.cfg.fontBase j
  zeros _ h := unlisted_eq_zero h
  disp := pixel_clear
  key k := Vector.getElem_replicate k.isLt
  run := rfl
  cyc := rfl

/-- Settles O55: the machine when created is its own reset. -/
theorem resetPutsEveryField : Obligations.ResetPutsEveryField :=
  ⟨resetAgain_isReset State.reset, fun s => ⟨s.resetAgain, rfl, resetAgain_isReset s, rfl⟩⟩

/-! ## Load -/

/-- Consecutive writes inside the store to a canonical memory are read back byte by byte. -/
theorem Memory.read_writeAll {base : Fin 433} {m : Memory} {a : Nat} {bs : List Byte}
    (hm : Memory.wf base m = true) (hfit : a + bs.length ≤ memSize) (j : Nat) (hj : j < bs.length) :
    Memory.read base (Memory.writeAll base m a bs) (a + j) = bs[j] := by
  induction bs generalizing a m j with
  | nil => exact absurd hj (Nat.not_lt_zero j)
  | cons b bs ih =>
    simp only [List.length_cons] at hfit hj
    rw [Memory.writeAll]
    cases j with
    | zero =>
      rw [Memory.read_writeAll_ne (.inl (by omega)), Memory.read_write a b _ hm]
      exact if_pos rfl
    | succ j =>
      rw [show a + (j + 1) = a + 1 + j by omega]
      exact ih (Memory.wf_write b (by omega) hm) (by omega) j (by omega)

/-- An image longer than MAX_IMAGE is refused (60_exceptions.md R136). -/
theorem load_of_too_large (s : State) {bytes : List Byte} (h : bytes.length > 3584) :
    s.load bytes = none := if_pos h

/-- An image that fits is written from the origin on. -/
theorem load_of_fits (s : State) {bytes : List Byte} (h : bytes.length ≤ 3584) :
    s.load bytes = some (s.setMem (s.mem.writeAll s.cfg.fontBase origin bytes)) :=
  if_neg (Nat.not_lt.2 h)

/-- Settles O57: an image that fits is one write of memory, from 0x200 to at most the end of the
store. -/
theorem loadCopiesImage : Obligations.LoadCopiesImage := by
  refine ⟨fun s bytes h => ?_, fun s bytes hm h => ?_⟩
  · simp only [State.perform, State.loadReply, load_of_too_large s h]
  · have hfit : origin + bytes.length ≤ memSize := by
      unfold origin memSize
      omega
    refine ⟨s.setMem (s.mem.writeAll s.cfg.fontBase origin bytes), ?_, frame_setMem s _,
      Memory.read_writeAll hm hfit, fun a ha => Memory.read_writeAll_ne ha s.mem⟩
    simp only [State.perform, State.loadReply, load_of_fits s h]

end Sys2Proof.Machine
end
